-- ==== Sys2Proof/Word.lean ====
section
/-!
DEFINITION. The words of the block: bytes, unsigned integers and byte strings of a fixed length (00_scope.md R8).
-/

namespace Sys2Proof

/-- A byte, an unsigned integer 0..255; bit 0 is its least significant bit (R8). -/
abbrev Byte := BitVec 8

/-- An unsigned 16-bit integer (R8). -/
abbrev U16 := BitVec 16

/-- An unsigned 32-bit integer (R8). -/
abbrev U32 := BitVec 32

/-- A byte string whose length `n` is fixed by its place; the first byte has index 0 (R8). -/
abbrev Bytes (n : Nat) := Vector Byte n

/-- A byte string of any length: a command packet, a response packet, a hash message, received radio bytes
(R8, R47, R52). -/
abbrev Packet := List Byte

/-- The master key and every subkey: 16 opaque bytes, `KEY_LEN` (R6, R14). -/
abbrev Key := Bytes 16

/-- One output of the primitive hash: 8 bytes, `HASH_LEN`; a tag (`TAG_LEN`), half a subkey or one keystream block
(R6, R30). -/
abbrev HashOutput := Bytes 8

/-- The 15 bytes of a SensorPayload, of its ciphertext and of its keystream, `PAYLOAD_LEN` (R6, R42). -/
abbrev Payload := Bytes 15

/-- The 28 bytes of a SecureFrame, `FRAME_LEN` (R6, R41). -/
abbrev FrameBytes := Bytes 28

end Sys2Proof
end

