-- ==== Sys2Proof/Machine/Operands.lean ====
section
/-!
DEFINITION. Byte strings and the integers read from them: slices, concatenation, XOR, little-endian conversion and the
two's-complement reading of the signed fields (00_scope.md R8, 20_memory.md R29, 30_encoding.md R62, 40_primitives.md
R70, R71, R73).
-/

namespace Sys2Proof.Machine

/-- A byte string of known length as a value of its own type. -/
def bytesOfList {n : Nat} (s : Packet) (h : s.length = n) : Bytes n :=
  ⟨s.toArray, by simpa using h⟩

/-- `s[off .. off + n - 1]` (R8). -/
def slice (s : Packet) (off n : Nat) (h : off + n ≤ s.length) : Bytes n :=
  bytesOfList ((s.drop off).take n) (by simp; omega)

/-- `s[i]`, one byte (R8). -/
def byteAt (s : Packet) (i : Nat) (h : i < s.length) : Byte := s[i]

/-- `a ∥ b`, `a` first (R8). -/
def joinBytes {m n : Nat} (a : Bytes m) (b : Bytes n) : Bytes (m + n) :=
  bytesOfList (a.toList ++ b.toList) (by simp)

/-- `a xor b`, byte by byte (R71). -/
def xorBytes {n : Nat} (a b : Bytes n) : Bytes n :=
  bytesOfList (List.zipWith (· ^^^ ·) a.toList b.toList) (by simp)

/-- The number whose bytes, least significant first, are those of a byte string: the little-endian reading of any width
(R8, R29). -/
def numberOfBytes : Packet → Nat
  | [] => 0
  | b :: rest => b.toNat + 256 * numberOfBytes rest

/-- `LE32(v)`, least significant byte first (R8). -/
def le32 (v : U32) : Bytes 4 :=
  #v[BitVec.ofNat 8 (v.toNat % 256), BitVec.ofNat 8 (v.toNat / 2 ^ 8 % 256),
     BitVec.ofNat 8 (v.toNat / 2 ^ 16 % 256), BitVec.ofNat 8 (v.toNat / 2 ^ 24 % 256)]

/-- `unLE32(s)` (R8). -/
def unLe32 (s : Bytes 4) : U32 :=
  BitVec.ofNat 32 (s[0].toNat + 2 ^ 8 * s[1].toNat + 2 ^ 16 * s[2].toNat + 2 ^ 24 * s[3].toNat)

/-- `LE16(v)` (R8). -/
def le16 (v : U16) : Bytes 2 :=
  #v[BitVec.ofNat 8 (v.toNat % 256), BitVec.ofNat 8 (v.toNat / 256)]

/-- `unLE16(s)` (R8). -/
def unLe16 (s : Bytes 2) : U16 :=
  BitVec.ofNat 16 (s[0].toNat + 2 ^ 8 * s[1].toNat)

/-- The number an N-bit pattern with unsigned value `u` denotes in two's complement (R73). PRESUMED by the spec itself
(U9; log 11). Only a host reads fields so. -/
def twosComplement (bits u : Nat) : Int :=
  if u < 2 ^ (bits - 1) then (u : Int) else (u : Int) - 2 ^ bits

/-- The value of an `i32` field: `x`, `y` or `z` (R42, R73). -/
def readI32 (s : Bytes 4) : Int := twosComplement 32 (unLe32 s).toNat

/-- The value of the `i16` field `temp_tenths` (R42, R73); signed by the spec's decision D19. -/
def readI16 (s : Bytes 2) : Int := twosComplement 16 (unLe16 s).toNat

/-- The four bytes of an `i32`: `LE32(v mod 2^32)` (R73, R74). -/
def writeI32 (v : Int) : Bytes 4 := le32 (BitVec.ofInt 32 v)

/-- The two bytes of an `i16`: `LE16(v mod 2^16)` (R73, R74). -/
def writeI16 (v : Int) : Bytes 2 := le16 (BitVec.ofInt 16 v)

end Sys2Proof.Machine
end

