-- ==== Sys2Proof/Syntax.lean ====
section
/-!
DEFINITION. The commands of the block: one constructor per row of spec/opcode_table.json (30_encoding.md R48 to R51,
R59, R60).
-/

namespace Sys2Proof

/-- SensorFrame, the members of a decoded record (R43): the operands of ENC (R50) and the result of DEC (R56). The
fields `x`, `y`, `z`, `tempTenths` are byte strings: the block moves their bytes and never reads them as numbers (R62).
-/
structure SensorFrame where
  nodeId     : Byte
  txSeq      : U32
  x          : Bytes 4
  y          : Bytes 4
  z          : Bytes 4
  tempTenths : Bytes 2
deriving DecidableEq, Repr

/-- A command. -/
inductive Instr where
  /-- `KDF id` (R48, R82). -/
  | kdf (nodeId : Byte)
  /-- `KSG key, nonce, n` (R49, R89). -/
  | ksg (key : Key) (nonce : U32) (n : U32)
  /-- `ENC id, seq, x, y, z, temp` (R50, R96). -/
  | enc (frame : SensorFrame)
  /-- `DEC bytes` (R51, R99): the received bytes, of whatever length they arrived with. -/
  | dec (data : Packet)
  /-- The row RESERVED (R59, R60, R120): a packet that is no command, with the packet itself. -/
  | reserved (packet : Packet)
deriving DecidableEq, Repr

/-- Why a packet is no command (R59, R60). -/
inductive MalformedCause where
  /-- A packet of length 0 has no opcode byte (R59). -/
  | emptyPacket
  /-- Byte 0 is 0x00 or 0x05..0xFF (R59). -/
  | reservedOpcode
  /-- The opcode is 0x01..0x04 and the packet's length is not the one its format requires (R60). -/
  | wrongLength
deriving DecidableEq, Repr

end Sys2Proof
end

