-- ==== Sys2Proof/Machine/Formats.lean ====
section
/-!
DEFINITION. The byte layouts of 30_encoding.md: the wire formats and hash messages of Part A (R41 to R46) and the
formats of command packets of Part B (R47 to R51, R59, R60).
-/

namespace Sys2Proof.Machine

/-! Part A: what the source fixes. -/

/-- SecureFrame, the wire frame (R41). -/
structure SecureFrame where
  nodeId     : Byte
  txSeq      : U32
  ciphertext : Payload
  tag        : HashOutput
deriving DecidableEq, Repr

/-- SensorPayload, the plaintext (R42). -/
structure SensorPayload where
  msgType    : Byte
  x          : Bytes 4
  y          : Bytes 4
  z          : Bytes 4
  tempTenths : Bytes 2
deriving DecidableEq, Repr

/-- `hdr = [id] ∥ LE32(seq)`, 5 bytes (R95 step 6). -/
def header (nodeId : Byte) (txSeq : U32) : Packet := nodeId :: (le32 txSeq).toList

/-- The tagged message `node_id ∥ tx_seq(4 LE) ∥ ciphertext`, 20 bytes (R46). -/
def taggedMessage (nodeId : Byte) (txSeq : U32) (ciphertext : Payload) : Packet :=
  header nodeId txSeq ++ ciphertext.toList

/-- The 28 bytes of a SecureFrame in wire order (R41). -/
def frameBytes (f : SecureFrame) : FrameBytes :=
  bytesOfList (taggedMessage f.nodeId f.txSeq f.ciphertext ++ f.tag.toList) (by simp [taggedMessage, header])

/-- The frame in the first 28 bytes of received data; none if there are fewer (R98 steps 1 to 3, R100, R101). -/
def frameOfData (data : Packet) : Option SecureFrame :=
  if h : 28 ≤ data.length then
    some { nodeId     := byteAt data 0 (by omega)
           txSeq      := unLe32 (slice data 1 4 (by omega))
           ciphertext := slice data 5 15 (by omega)
           tag        := slice data 20 8 (by omega) }
  else none

/-- What a subkey is for (R44). -/
inductive Purpose where
  | enc
  | mac
deriving DecidableEq, Repr

/-- The three characters of the label in ASCII: `E N C` or `M A C` (R6, R10). PRESUMED by the spec itself (U8; log 10).
-/
def labelPrefix : Purpose → Packet
  | .enc => [0x45, 0x4E, 0x43]
  | .mac => [0x4D, 0x41, 0x43]

/-- `KDF_SEP`, the domain-separator byte (R6). -/
def kdfSeparator : Byte := 0xA5

/-- `LABEL(P, id)`, 6 bytes (R44). -/
def label (p : Purpose) (nodeId : Byte) : Packet := labelPrefix p ++ [nodeId, 0x00, 0x01]

/-- `LABEL(P, id) ∥ A5`, 7 bytes (R44). -/
def extendedLabel (p : Purpose) (nodeId : Byte) : Packet := label p nodeId ++ [kdfSeparator]

/-- The keystream block message `'S' ∥ nonce(4 LE) ∥ b(4 LE)`, 9 bytes (R45); `S` in ASCII (R10; log 10). -/
def blockMessage (nonce blockIndex : U32) : Packet :=
  0x53 :: ((le32 nonce).toList ++ (le32 blockIndex).toList)

/-! Part B: the spec's command interface. -/

/-- Opcodes (R59). -/
def opKdf : Byte := 0x01
@[inherit_doc opKdf] def opKsg : Byte := 0x02
@[inherit_doc opKdf] def opEnc : Byte := 0x03
@[inherit_doc opKdf] def opDec : Byte := 0x04

/-- The 19 bytes of a SensorFrame, the same in an ENC command and in a DEC response (R50, R56). -/
def sensorFrameBytes (f : SensorFrame) : Packet :=
  header f.nodeId f.txSeq ++ (f.x.toList ++ (f.y.toList ++ (f.z.toList ++ f.tempTenths.toList)))

/-- The length the format of a packet's opcode requires, from the opcode and, for DEC, the `len` byte; none for a
reserved opcode (R48 to R51, R60). A DEC packet without a `len` byte needs at least two bytes. -/
def formatLength : Packet → Option Nat
  | [] => none
  | op :: rest =>
    if op = opKdf then some 2
    else if op = opKsg then some 25
    else if op = opEnc then some 20
    else if op = opDec then some (2 + (rest.headD 0).toNat)
    else none

/-- Why a packet is no command; none for a well-formed command (R59, R60). -/
def malformedCause (p : Packet) : Option MalformedCause :=
  match formatLength p with
  | none => if p.isEmpty then some .emptyPacket else some .reservedOpcode
  | some l => if p.length = l then none else some .wrongLength

end Sys2Proof.Machine
end

