-- ==== Sys2Proof/WellFormed.lean ====
section
/-!
DEFINITION. Which terms of `Instr` stand for a packet: every operand fits its field, and a RESERVED packet is indeed no
command (30_encoding.md R48 to R51, R59, R60).
-/

namespace Sys2Proof

/-- `i` is what some packet decodes to. The operands of KDF, KSG and ENC fit their fields by their types; the `len` byte
of DEC counts at most 255 data bytes (R51); RESERVED carries only packets that are no command (R59, R60). -/
def Instr.wellFormed : Instr → Bool
  | .kdf _ => true
  | .ksg _ _ _ => true
  | .enc _ => true
  | .dec data => decide (data.length ≤ 255)
  | .reserved packet => (Machine.malformedCause packet).isSome

end Sys2Proof
end

