-- ==== Sys2Proof/Decode.lean ====
section
/-!
DEFINITION. The packet decoder, total on every byte string (30_encoding.md R61), the encoder of the same formats (R48 to
R51), and the host's view of both through the opcode table's numbering of bits.
-/

namespace Sys2Proof

open Machine

/-- Format C-KDF: `if L = 2 then KDF(node_id = p[1])` (R48, R61). -/
def decodeKdf (p : Packet) : Instr :=
  if h : p.length = 2 then .kdf (byteAt p 1 (by omega)) else .reserved p

/-- Format C-KSG (R49, R61). -/
def decodeKsg (p : Packet) : Instr :=
  if h : p.length = 25 then
    .ksg (slice p 1 16 (by omega)) (unLe32 (slice p 17 4 (by omega))) (unLe32 (slice p 21 4 (by omega)))
  else .reserved p

/-- Format C-ENC (R50, R61). -/
def decodeEnc (p : Packet) : Instr :=
  if h : p.length = 20 then
    .enc { nodeId     := byteAt p 1 (by omega)
           txSeq      := unLe32 (slice p 2 4 (by omega))
           x          := slice p 6 4 (by omega)
           y          := slice p 10 4 (by omega)
           z          := slice p 14 4 (by omega)
           tempTenths := slice p 18 2 (by omega) }
  else .reserved p

/-- Format C-DEC: `if L >= 2 and L = 2 + p[1] then DEC(data = p[2..L-1])` (R51, R60, R61). -/
def decodeDec (p : Packet) : Instr :=
  if h : 2 ≤ p.length then
    if p.length = 2 + (byteAt p 1 (by omega)).toNat then .dec (p.drop 2) else .reserved p
  else .reserved p

/-- The command a packet stands for (R61). A packet that is no command is RESERVED, by name. -/
def decode (p : Packet) : Instr :=
  match p with
  | [] => .reserved []
  | op :: _ =>
    if op = opKdf then decodeKdf p
    else if op = opKsg then decodeKsg p
    else if op = opEnc then decodeEnc p
    else if op = opDec then decodeDec p
    else .reserved p

/-- The packet of a command (R48 to R51). -/
def encode : Instr → Packet
  | .kdf nodeId => [opKdf, nodeId]
  | .ksg key nonce n => opKsg :: (key.toList ++ ((le32 nonce).toList ++ (le32 n).toList))
  | .enc frame => opEnc :: sensorFrameBytes frame
  | .dec data => opDec :: BitVec.ofNat 8 data.length :: data
  | .reserved packet => packet

/-! The host's numbering of an instruction's bits: bit 0 is the least significant bit of byte 0 of the packet, and the
bits of a later byte count on. -/

/-- The first `count` bytes of the number `w`, byte 0 first. -/
def bytesOfNumber : Nat → Nat → Packet
  | 0, _ => []
  | count + 1, w => BitVec.ofNat 8 (w % 256) :: bytesOfNumber count (w / 256)

/-- The packet whose bits are `w`, `nbits` of them, every later bit 0, cut to the length its format requires; a packet
of a reserved opcode is the bytes given (log 20). -/
def tablePacket (nbits w : Nat) : Packet :=
  let given := bytesOfNumber ((nbits + 7) / 8) w
  match formatLength given with
  | none => given
  | some l => (given ++ List.replicate l 0x00).take l

/-- What the decoder reads from an instruction whose bits are `w`, numbered as spec/opcode_table.json numbers them. The
decoder refuses nothing. -/
def decodeTableWord (nbits w : Nat) : Option Instr := some (decode (tablePacket nbits w))

end Sys2Proof
end

