-- ==== Sys2Proof/Config.lean ====
section
/-!
DEFINITION. What the spec leaves to the implementation (00_scope.md R7): the parameters of a block, and the block's own
as one constant without a body. None of it is state: no command and no reset changes it (10_state.md R13, R26, R133).
-/

namespace Sys2Proof

/-- The parameters of a block (R7). -/
structure Params where
  /-- `H`: total, and a function of its key and message alone (R67). Nothing else is assumed of it (R68). -/
  hash : Key → Packet → HashOutput
  /-- `MK`, the master key: 16 opaque bytes (R14). -/
  masterKey : Key
  /-- `MAX_NODES - 1`: the legal values of `MAX_NODES` are 1..255, and a block with 0 is not instantiated (R15). -/
  maxNodesPred : Fin 255
  /-- `MSG_TYPE`, the payload sentinel, any byte (R16). -/
  msgType : Byte
deriving Inhabited

/-- `MAX_NODES`, the highest valid node id, 1..255 (R15). -/
def Params.maxNodes (c : Params) : Nat := c.maxNodesPred.val + 1

/-- The parameters of the block that this model is a model of: OPEN in the spec (D8 to D11), free here (logs 1 to 3). They
are one constant for the whole of a run: that the environment presents the same `MK`, `MAX_NODES` and `MSG_TYPE` after a
reset, which R133 leaves to it, is the model's choice (DESIGN CHOICE, log 2). -/
opaque Config.block : Params

end Sys2Proof
end

