-- ==== Sys2Proof/Machine/State.lean ====
section
/-!
DEFINITION. The state of the machine: the sequence table SEQT, which is all the state the spec gives the block
(10_state.md R13, R17, R18), and the model's own record of what the host sends and receives (70_reset_and_hazards.md
R147, R148; log 5).
-/

namespace Sys2Proof.Machine

/-- One entry of SEQT: `SEQ_VALID[i]` and `LAST_SEQ[i]` (R17, R18, R28). -/
structure SeqEntry where
  valid : Bool
  last  : U32
deriving DecidableEq, Repr

/-- The entry after reset: no frame accepted, sequence number 0 (R26, R132). -/
def SeqEntry.atReset : SeqEntry := { valid := false, last := 0 }

/-- SEQT as a list of (index, entry) pairs in one canonical form (`Memory.wf`): indices strictly rising and below 256,
and no entry equal to `SeqEntry.atReset`, which is what an unlisted index reads as (R26, R28, R35; log 9). -/
abbrev Memory := List (Nat × SeqEntry)

/-- What the host does to the block, one event at a time (R147). -/
inductive HostEvent where
  /-- It sends one command packet (R47). -/
  | command (packet : Packet)
  /-- It asserts reset (R131). -/
  | reset
deriving DecidableEq, Repr

/-- The state. -/
structure State where
  /-- SEQT: `LAST_SEQ[0..255]` and `SEQ_VALID[0..255]` (R13, R17, R18). -/
  seqt : Memory
  /-- The host's events still to come, oldest first; the model's own field (log 5). -/
  inputs : List HostEvent
  /-- The responses so far, oldest first, which a run is observed by (R148); the model's own field (log 5). -/
  responses : List Packet
deriving DecidableEq, Repr

/-- Why the machine stops with a fault. Nothing raises one: "The block never halts, locks up or refuses service" (R126),
and every failure is a status in a response (R113; log 22). With no constructor, no claim can be lost to a fault: safe.
-/
inductive Fault
deriving DecidableEq, Repr

/-- Why the machine gives an instruction no meaning. -/
inductive Refusal where
  /-- An instruction with no meaning yet, raised by its arm of `exec` only. No arm raises it: every row of the opcode
  table has its meaning. Safe: a refusal proves nothing. -/
  | notModelled (mnemonic : String)
deriving DecidableEq, Repr

/-- The machine right after reset: every SEQT entry invalid with sequence number 0 (R26, R132), no event pending and no
response given (DESIGN CHOICE, log 5). -/
def State.reset : State := { seqt := [], inputs := [], responses := [] }

end Sys2Proof.Machine
end

