-- ==== Sys2Proof/Machine/Flags.lean ====
section
/-!
DEFINITION. Status codes and the conditions that decide them. The block has no flags register (10_state.md R22): the
outcome of a command is the status byte of its response (30_encoding.md R58), and the only stored bits are `SEQ_VALID`.
-/

namespace Sys2Proof.Machine

/-- The error statuses (R58, R114). -/
inductive ErrorStatus where
  /-- DEC: fewer than 28 bytes of data (R115). -/
  | short
  /-- DEC: the plaintext's first byte is not `MSG_TYPE` (R116). -/
  | msgType
  /-- DEC: the recomputed tag differs from the received one (R117). -/
  | authTag
  /-- DEC: the sequence number is not above the last one accepted (R118). -/
  | authReplay
  /-- ENC and DEC: the node id is 0 or above `MAX_NODES` (R119). -/
  | nodeId
  /-- Any packet that is no command (R120). -/
  | cmd
deriving DecidableEq, Repr

/-- The classes of errors (R58, R114). `protocolError` and `authenticationFailure` are the source's own; the source gives
the rejection of an invalid node id no class name (R119), and `invalidNodeId` is the model's name for the table's entry
"(invalid node id, §3)" (DESIGN CHOICE, log 28). -/
inductive ErrorClass where
  | protocolError
  | authenticationFailure
  | invalidNodeId
deriving DecidableEq, Repr

/-- The status byte of success, `OK` (R58). -/
def okCode : Byte := 0x00

/-- The status byte of an error (R58). -/
def errorCode : ErrorStatus → Byte
  | .short => 0x01
  | .msgType => 0x02
  | .authTag => 0x03
  | .authReplay => 0x04
  | .nodeId => 0x05
  | .cmd => 0x06

/-- The class of an error (R58, R114); `ERR_CMD` has none, as the tables say. Nothing the block does depends on it. -/
def errorClass : ErrorStatus → Option ErrorClass
  | .short => some .protocolError
  | .msgType => some .protocolError
  | .authTag => some .authenticationFailure
  | .authReplay => some .authenticationFailure
  | .nodeId => some .invalidNodeId
  | .cmd => none

/-- The range test `id = 0 or id > MAX_NODES`, unsigned (R72 (d), R95 step 1, R107). -/
def nodeIdInvalid (c : Params) (nodeId : Byte) : Bool :=
  decide (nodeId.toNat = 0) || decide (c.maxNodes < nodeId.toNat)

/-- The replay test `v = 1 and seq <=u last`, the order of the naturals without wrap (R72 (c), R103). -/
def isReplay (entry : SeqEntry) (txSeq : U32) : Bool :=
  entry.valid && decide (txSeq.toNat ≤ entry.last.toNat)

/-- Tag comparison: all 8 byte pairs are equal (R78). Its timing is not modelled (R142; log 15). -/
def tagsEqual (a b : HashOutput) : Bool := decide (a = b)

end Sys2Proof.Machine
end

