-- ==== Sys2Proof/Machine/Ops.lean ====
section
/-!
DEFINITION. The operations shared by all commands: reading and writing SEQT (`MemRead`, `MemWrite`), ending a command
with a result or with an error (`return OK`, `raise E`), reset, and taking the host's next event (00_scope.md R9).
-/

namespace Sys2Proof.Machine

/-! SEQT. -/

/-- The canonical form of SEQT: indices strictly rising and below 256, no entry equal to what an unlisted index reads
as (R28, R35; log 9). -/
def Memory.wf : Memory → Bool
  | [] => true
  | (i, e) :: rest =>
    decide (i < 256) && decide (e ≠ SeqEntry.atReset) && rest.all (fun c => decide (i < c.1)) && Memory.wf rest

/-- The entry at an index of the list; an unlisted index reads as the reset entry (R26). -/
def lookupEntry : Memory → Nat → SeqEntry
  | [], _ => SeqEntry.atReset
  | (j, e) :: rest, i => if i = j then e else lookupEntry rest i

/-- Puts an entry at the head of a list whose indices lie above its own, unless it reads as unlisted. -/
def consEntry (i : Nat) (e : SeqEntry) (rest : Memory) : Memory :=
  if e = SeqEntry.atReset then rest else (i, e) :: rest

/-- Sets the entry at an index and keeps the canonical form. -/
def storeEntry : Memory → Nat → SeqEntry → Memory
  | [], i, e => consEntry i e []
  | (j, f) :: rest, i, e =>
    if i < j then consEntry i e ((j, f) :: rest)
    else if i = j then consEntry i e rest
    else (j, f) :: storeEntry rest i e

/-- `MemRead(i, 1)`, the pair `(SEQ_VALID[i], LAST_SEQ[i])`; every index 0..255 exists (R9, R35, R150). -/
def memRead (m : Memory) (i : Byte) : SeqEntry := lookupEntry m i.toNat

/-- `MemWrite(i, 1, (v, s))`, one indivisible write of both fields (R9, R104, R150). -/
def memWrite (m : Memory) (i : Byte) (e : SeqEntry) : Memory := storeEntry m i.toNat e

/-! The end of a command. -/

/-- What a command leaves: the contents of SEQT, and its result bytes or its error (R9, R27). -/
structure Reply where
  seqt   : Memory
  result : Except ErrorStatus Packet

/-- Emission of a response packet (R47, R52). -/
def respond (packet : Packet) (s : State) : State := { s with responses := s.responses ++ [packet] }

/-- `raise E`, the block's only exception: the response is the status byte alone; nothing is saved, nothing that the
command wrote before is undone, and the block takes the next command (R9, R57, R113, R122). There is no return from it
(R124). -/
def raise (e : ErrorStatus) (s : State) : State := respond [errorCode e] s

/-- `return OK(...)`: the status `OK`, then the result bytes (R9, R52). -/
def returnOk (result : Packet) (s : State) : State := respond (okCode :: result) s

/-- The end of a command: SEQT as the command left it, then the response (R37: a response is produced after all state
writes of its command). -/
def conclude (r : Reply) (s : State) : State :=
  match r.result with
  | .ok result => returnOk result { s with seqt := r.seqt }
  | .error e => raise e { s with seqt := r.seqt }

/-- The response packet of a reply (R52, R57). -/
def responsePacket (r : Reply) : Packet :=
  match r.result with
  | .ok result => okCode :: result
  | .error e => [errorCode e]

/-! The host. -/

/-- The reset event: every entry of SEQT takes its reset value, nothing else changes, and there is no response (R131 to
R133, R147). Responses already given are the host's (log 8). -/
def hostReset (s : State) : State := { s with seqt := [] }

/-- What the step has to do next. -/
inductive Pending where
  /-- No event is pending: the block is idle (R132, R134). -/
  | idle
  /-- The host asserts reset. -/
  | reset (rest : State)
  /-- The host has sent a packet. -/
  | command (packet : Packet) (rest : State)

/-- The host's next event, and the state in which it has been taken (R37: events take effect in the order the host
issues them). -/
def nextEvent (s : State) : Pending :=
  match s.inputs with
  | [] => .idle
  | .reset :: rest => .reset { s with inputs := rest }
  | .command p :: rest => .command p { s with inputs := rest }

/-- The host sends a packet before everything else it was going to do. -/
def presentPacket (p : Packet) (s : State) : State := { s with inputs := .command p :: s.inputs }

end Sys2Proof.Machine
end

