-- ==== Sys2Proof/Machine/Primitives.lean ====
section
/-!
DEFINITION. The pure functions every command is built from: payload packing and the tag (40_primitives.md R74, R75, R77).
-/

namespace Sys2Proof.Machine

/-- `H(k, m)` of a block (R9, R67). -/
def hashOf (c : Params) (k : Key) (m : Packet) : HashOutput := c.hash k m

/-- The 15 bytes of a SensorPayload (R42, R74). -/
def payloadBytes (p : SensorPayload) : Payload :=
  bytesOfList (p.msgType :: (p.x.toList ++ (p.y.toList ++ (p.z.toList ++ p.tempTenths.toList)))) (by simp)

/-- `PACK(xb, yb, zb, tb)`: the payload whose `msg_type` is the sentinel (R74). -/
def pack (c : Params) (x y z : Bytes 4) (tempTenths : Bytes 2) : Payload :=
  payloadBytes { msgType := c.msgType, x, y, z, tempTenths }

/-- `UNPACK(pt)`, total, without a check (R75). -/
def unpack (pt : Payload) : SensorPayload :=
  { msgType    := pt[0]
    x          := slice pt.toList 1 4 (by simp)
    y          := slice pt.toList 5 4 (by simp)
    z          := slice pt.toList 9 4 (by simp)
    tempTenths := slice pt.toList 13 2 (by simp) }

/-- `TAG(K_mac, m)`: one output of `H`, used whole, over the ciphertext and never the plaintext (R77). -/
def tagOf (c : Params) (kMac : Key) (message : Packet) : HashOutput := hashOf c kMac message

end Sys2Proof.Machine
end

