-- ==== Sys2Proof/Machine/KeyDerivation.lean ====
section
/-!
DEFINITION. Key derivation: the function `KDF` and the command KDF (41_key_derivation.md).
-/

namespace Sys2Proof.Machine

/-- The pair `(K_enc, K_mac)` (R81). -/
structure Subkeys where
  enc : Key
  mac : Key
deriving DecidableEq, Repr

/-- One 16-byte subkey: the hash of the label, then the hash of the label and the separator, both under `MK` (R81). -/
def subkey (c : Params) (p : Purpose) (nodeId : Byte) : Key :=
  joinBytes (hashOf c c.masterKey (label p nodeId)) (hashOf c c.masterKey (extendedLabel p nodeId))

/-- `KDF(id)`, for every byte `id` (R81, R82). -/
def kdf (c : Params) (nodeId : Byte) : Subkeys :=
  { enc := subkey c .enc nodeId, mac := subkey c .mac nodeId }

/-- Command `KDF id`: `return OK(K_enc ∥ K_mac)`; no check of `id`, SEQT neither read nor written (R82). -/
def kdfCommand (c : Params) (nodeId : Byte) (seqt : Memory) : Reply :=
  { seqt, result := .ok ((kdf c nodeId).enc.toList ++ (kdf c nodeId).mac.toList) }

/-- The meaning of KDF (R82). -/
def execKdf (nodeId : Byte) (s : State) : Host.Outcome State Fault Refusal :=
  .next (conclude (kdfCommand Config.block nodeId s.seqt) s)

end Sys2Proof.Machine
end

