-- ==== Sys2Proof/Machine/Keystream.lean ====
section
/-!
DEFINITION. The keystream generator: the function `KSG` and the command KSG (42_keystream.md).
-/

namespace Sys2Proof.Machine

/-- `BLOCK(K, N, b)`, 8 bytes (R87). A block index of 2^32 or more, which R92 leaves undefined because no command reaches
it, is taken modulo 2^32 (DESIGN CHOICE, log 29). -/
def keystreamBlock (c : Params) (k : Key) (nonce : U32) (b : Nat) : HashOutput :=
  hashOf c k (blockMessage nonce (BitVec.ofNat 32 b))

/-- `nb = ceil(n / 8)`, on naturals (R72 (e), R87). -/
def blockCount (n : Nat) : Nat := (n + 7) / 8

/-- `BLOCK(K,N,0) ∥ ... ∥ BLOCK(K,N,nb-1)` (R87). -/
def keystreamBlocks (c : Params) (k : Key) (nonce : U32) (nb : Nat) : Packet :=
  (List.range nb).flatMap (fun b => (keystreamBlock c k nonce b).toList)

theorem keystreamBlocks_length (c : Params) (k : Key) (nonce : U32) (nb : Nat) :
    (keystreamBlocks c k nonce nb).length = 8 * nb := by
  simp [keystreamBlocks, List.length_flatMap, Nat.mul_comm]

/-- `KSG(K, N, n)`, exactly `n` bytes: the first `n` of the blocks, so that a last block cut short keeps its leading
bytes (R87, R88). -/
def ksg (c : Params) (k : Key) (nonce : U32) (n : Nat) : Bytes n :=
  bytesOfList ((keystreamBlocks c k nonce (blockCount n)).take n)
    (by rw [List.length_take, keystreamBlocks_length]; simp only [blockCount]; omega)

/-- Command `KSG key, nonce, n`: `return OK(ks)`; SEQT neither read nor written (R89). -/
def ksgCommand (c : Params) (key : Key) (nonce n : U32) (seqt : Memory) : Reply :=
  { seqt, result := .ok (ksg c key nonce n.toNat).toList }

/-- The meaning of KSG (R89). -/
def execKsg (key : Key) (nonce n : U32) (s : State) : Host.Outcome State Fault Refusal :=
  .next (conclude (ksgCommand Config.block key nonce n s.seqt) s)

end Sys2Proof.Machine
end

