-- ==== Sys2Proof/Machine/FrameCodec.lean ====
section
/-!
DEFINITION. The secure frame codec: the functions `ENCODE` and `DECODE` and the commands ENC and DEC (43_frame_codec.md).
-/

namespace Sys2Proof.Machine

/-- `ENCODE(id, seq, xb, yb, zb, tb)` (R95): the range check first, then the frame. Reads and writes no state. -/
def encodeFrame (c : Params) (f : SensorFrame) : Except ErrorStatus FrameBytes :=
  if nodeIdInvalid c f.nodeId then .error .nodeId
  else
    let keys := kdf c f.nodeId
    let pt := pack c f.x f.y f.z f.tempTenths
    let ct := xorBytes pt (ksg c keys.enc f.txSeq 15)
    let tag := tagOf c keys.mac (taggedMessage f.nodeId f.txSeq ct)
    .ok (frameBytes { nodeId := f.nodeId, txSeq := f.txSeq, ciphertext := ct, tag })

/-- Command `ENC id, seq, x, y, z, temp` (R96). -/
def encCommand (c : Params) (f : SensorFrame) (seqt : Memory) : Reply :=
  { seqt, result := (encodeFrame c f).map (fun frame => frame.toList) }

/-- The meaning of ENC (R96). -/
def execEnc (f : SensorFrame) (s : State) : Host.Outcome State Fault Refusal :=
  .next (conclude (encCommand Config.block f s.seqt) s)

/-- Decryption: the plaintext of a frame's ciphertext, unpacked (R98 steps 9 and 10, R105). -/
def decryptFrame (c : Params) (f : SecureFrame) : SensorPayload :=
  unpack (xorBytes f.ciphertext (ksg c (kdf c f.nodeId).enc f.txSeq 15))

/-- Validation of an authentic, fresh frame and its result (R98 steps 11 to 13, R106 to R108). -/
def validateFrame (c : Params) (f : SecureFrame) : Except ErrorStatus SensorFrame :=
  let p := decryptFrame c f
  if p.msgType ≠ c.msgType then .error .msgType
  else if nodeIdInvalid c f.nodeId then .error .nodeId
  else .ok { nodeId := f.nodeId, txSeq := f.txSeq, x := p.x, y := p.y, z := p.z, tempTenths := p.tempTenths }

/-- The tag the block computes for received data: `H(K_mac, f[0..19])` under the subkey of the received node id (R98
steps 4 and 5, R102). -/
def expectedTag (c : Params) (data : Packet) (f : SecureFrame) : HashOutput :=
  tagOf c (kdf c f.nodeId).mac (data.take 20)

/-- The write of an accepted sequence number: `SEQ_VALID[id] <- 1`, `LAST_SEQ[id] <- seq` (R104). -/
def acceptSeq (seqt : Memory) (f : SecureFrame) : Memory :=
  memWrite seqt f.nodeId { valid := true, last := f.txSeq }

/-- `DECODE(data)`, its steps in the order of R98: length, tag, replay, the table write that stays whatever follows,
decryption, message type, node id. -/
def decodeFrame (c : Params) (data : Packet) (seqt : Memory) : Memory × Except ErrorStatus SensorFrame :=
  match frameOfData data with
  | none => (seqt, .error .short)
  | some f =>
    if !tagsEqual (expectedTag c data f) f.tag then (seqt, .error .authTag)
    else if isReplay (memRead seqt f.nodeId) f.txSeq then (seqt, .error .authReplay)
    else (acceptSeq seqt f, validateFrame c f)

/-- Command `DEC bytes` (R99): on success the 19 bytes of the SensorFrame (R56). -/
def decCommand (c : Params) (data : Packet) (seqt : Memory) : Reply :=
  { seqt := (decodeFrame c data seqt).1, result := (decodeFrame c data seqt).2.map sensorFrameBytes }

/-- The meaning of DEC (R99). -/
def execDec (data : Packet) (s : State) : Host.Outcome State Fault Refusal :=
  .next (conclude (decCommand Config.block data s.seqt) s)

end Sys2Proof.Machine
end

