-- ==== Sys2Proof/Machine/Reserved.lean ====
section
/-!
DEFINITION. Packets that are no command (30_encoding.md R59, R60; 60_exceptions.md R120).
-/

namespace Sys2Proof.Machine

/-- The answer to a packet that is no command: `ERR_CMD`; no operand is used and no state changes (R120). -/
def reservedCommand (_packet : Packet) (seqt : Memory) : Reply := { seqt, result := .error .cmd }

/-- The meaning of the row RESERVED (R59, R60, R120). -/
def execReserved (packet : Packet) (s : State) : Host.Outcome State Fault Refusal :=
  .next (conclude (reservedCommand packet s.seqt) s)

end Sys2Proof.Machine
end

