-- ==== Sys2Proof/Machine/Dispatch.lean ====
section
/-! DEFINITION. The dispatch of commands to their meanings (30_encoding.md R59). -/

namespace Sys2Proof.Machine

def exec (i : Instr) (s : State) : Host.Outcome State Fault Refusal :=
  match i with
  | .kdf nodeId => Sys2Proof.Machine.execKdf nodeId s
  | .ksg key nonce n => Sys2Proof.Machine.execKsg key nonce n s
  | .enc frame => Sys2Proof.Machine.execEnc frame s
  | .dec data => Sys2Proof.Machine.execDec data s
  | .reserved packet => Sys2Proof.Machine.execReserved packet s

end Sys2Proof.Machine
end

