-- ==== Sys2Proof/Machine/Step.lean ====
section
/-!
DEFINITION. One step: the block takes the host's next event and completes it before the next (20_memory.md R33, R37;
70_reset_and_hazards.md R131, R147).
-/

namespace Sys2Proof.Machine

/-- One step. With no event pending the block is idle and nothing changes (R132; log 7); a reset event clears SEQT and
gets no response (R132, R147); a packet is decoded and executed (R61), and gets one response (R47). -/
def step (s : State) : Host.Outcome State Fault Refusal :=
  match nextEvent s with
  | .idle => .next s
  | .reset rest => .next (hostReset rest)
  | .command p rest => exec (decode p) rest

/-- The state in which the packet of an opcode-table word is the host's very next event (log 6). -/
def State.withFetchWord (s : State) (nbits w : Nat) : State := presentPacket (tablePacket nbits w) s

end Sys2Proof.Machine
end

