-- ==== Sys2Proof/Machine/Assembler.lean ====
section
/-!
DEFINITION. The textual form of commands and responses (30_encoding.md R63), over lists of characters. What R63 leaves
open of it (the blanks, the case of hexadecimal digits, the separators of a printed response) is said in log 18.
-/

namespace Sys2Proof.Machine

/-! Characters and words. -/

/-- A space, a tab or a carriage return (DESIGN CHOICE, log 18). -/
def isBlank (ch : Char) : Bool := ch == ' ' || ch == '\t' || ch == '\r'

/-- A text without the blanks at its two ends. -/
def trimBlanks (s : List Char) : List Char :=
  ((s.dropWhile isBlank).reverse.dropWhile isBlank).reverse

/-- A line without its comment: `#` starts one (R63). -/
def dropComment (s : List Char) : List Char := s.takeWhile (· != '#')

/-- The pieces of a text between commas (R63). -/
def splitCommas : List Char → List (List Char)
  | [] => [[]]
  | ch :: rest =>
    match splitCommas rest with
    | [] => [[ch]]
    | piece :: pieces => if ch == ',' then [] :: piece :: pieces else (ch :: piece) :: pieces

/-! Numbers. -/

/-- The value of a decimal digit. -/
def decimalDigit (ch : Char) : Option Nat :=
  if 48 ≤ ch.toNat ∧ ch.toNat ≤ 57 then some (ch.toNat - 48) else none

/-- The value of a hexadecimal digit, in either case (log 18). -/
def hexDigit (ch : Char) : Option Nat :=
  if 48 ≤ ch.toNat ∧ ch.toNat ≤ 57 then some (ch.toNat - 48)
  else if 65 ≤ ch.toNat ∧ ch.toNat ≤ 70 then some (ch.toNat - 55)
  else if 97 ≤ ch.toNat ∧ ch.toNat ≤ 102 then some (ch.toNat - 87)
  else none

/-- The number whose digits follow those already read, most significant first. -/
def readDigits (digit : Char → Option Nat) (base : Nat) : Nat → List Char → Option Nat
  | acc, [] => some acc
  | acc, ch :: rest =>
    match digit ch with
    | none => none
    | some d => readDigits digit base (base * acc + d) rest

/-- A number of at least one digit. -/
def readNumber (digit : Char → Option Nat) (base : Nat) (s : List Char) : Option Nat :=
  if s.isEmpty then none else readDigits digit base 0 s

/-- A value that must fit its field; an operand that does not fit is refused, never truncated (R63). -/
def fitting (bits : Nat) (v : Nat) : Option (BitVec bits) :=
  if v < 2 ^ bits then some (BitVec.ofNat bits v) else none

/-- `<id>`, `<nonce>`, `<seq>`, `<n>`: an unsigned number, decimal or `0x` hexadecimal (R63). -/
def readUnsigned (bits : Nat) (s : List Char) : Option (BitVec bits) :=
  match s with
  | '0' :: 'x' :: digits => (readNumber hexDigit 16 digits).bind (fitting bits)
  | _ => (readNumber decimalDigit 10 s).bind (fitting bits)

/-- `<x>`, `<y>`, `<z>`, `<temp>`: a signed decimal number that fits the field, or a `0x` hexadecimal bit pattern of at
most `bits / 4` digits; the two's-complement bit pattern (R63). -/
def readSigned (bits : Nat) (s : List Char) : Option (BitVec bits) :=
  match s with
  | '0' :: 'x' :: digits =>
    if digits.length ≤ bits / 4 then (readNumber hexDigit 16 digits).bind (fitting bits) else none
  | '-' :: digits =>
    (readNumber decimalDigit 10 digits).bind
      (fun v => if v ≤ 2 ^ (bits - 1) then some (BitVec.ofInt bits (-(v : Int))) else none)
  | _ =>
    (readNumber decimalDigit 10 s).bind
      (fun v => if v < 2 ^ (bits - 1) then some (BitVec.ofNat bits v) else none)

/-- An even number of hexadecimal digits, two to a byte, blanks allowed between bytes (R63). -/
def readHexBytes : List Char → Option Packet
  | [] => some []
  | ch :: rest =>
    if isBlank ch then readHexBytes rest
    else
      match rest with
      | [] => none
      | low :: more =>
        match hexDigit ch, hexDigit low, readHexBytes more with
        | some h, some l, some bytes => some (BitVec.ofNat 8 (16 * h + l) :: bytes)
        | _, _, _ => none

/-- `<key>`: exactly 32 hexadecimal digits, the first two being `key[0]` (R63). -/
def readKey (s : List Char) : Option Key :=
  if s.length = 32 then
    match readHexBytes s with
    | some bytes => if h : bytes.length = 16 then some (bytesOfList bytes h) else none
    | none => none
  else none

/-! Commands. -/

/-- The operands of ENC in the assembler's order (R63). -/
def readSensorFrame (id seq x y z temp : List Char) : Option SensorFrame :=
  match readUnsigned 8 id, readUnsigned 32 seq, readSigned 32 x, readSigned 32 y, readSigned 32 z,
      readSigned 16 temp with
  | some nodeId, some txSeq, some xv, some yv, some zv, some tv =>
    some { nodeId, txSeq, x := le32 xv, y := le32 yv, z := le32 zv, tempTenths := le16 tv }
  | _, _, _, _, _, _ => none

/-- A command from its mnemonic and its operand text (R63). -/
def readCommand (mnemonic operands : List Char) : Option Instr :=
  let args := (splitCommas operands).map trimBlanks
  if mnemonic = ['K', 'D', 'F'] then
    match args with
    | [id] => (readUnsigned 8 id).map Instr.kdf
    | _ => none
  else if mnemonic = ['K', 'S', 'G'] then
    match args with
    | [key, nonce, n] =>
      match readKey key, readUnsigned 32 nonce, readUnsigned 32 n with
      | some k, some v, some l => some (.ksg k v l)
      | _, _, _ => none
    | _ => none
  else if mnemonic = ['E', 'N', 'C'] then
    match args with
    | [id, seq, x, y, z, temp] => (readSensorFrame id seq x y z temp).map Instr.enc
    | _ => none
  else if mnemonic = ['D', 'E', 'C'] then
    match readHexBytes operands with
    | some data => if data.length ≤ 255 then some (.dec data) else none
    | none => none
  else none

/-- What a line of text is. -/
inductive AsmLine where
  /-- A blank line or a comment alone. -/
  | blank
  /-- A command. -/
  | command (i : Instr)
  /-- Anything else: the assembler refuses it (R63). -/
  | refused
deriving DecidableEq, Repr

/-- One line of a program: one command per line (R63). R63 does not say whether a line may be indented or what parts the
mnemonic from its operands: here blanks at both ends of the line are dropped, and the mnemonic ends at the first blank
(DESIGN CHOICE, log 18). -/
def readLine (line : List Char) : AsmLine :=
  let text := trimBlanks (dropComment line)
  if text.isEmpty then .blank
  else
    match readCommand (text.takeWhile (fun ch => !isBlank ch)) (trimBlanks (text.dropWhile (fun ch => !isBlank ch))) with
    | some i => .command i
    | none => .refused

/-- The packet of a line, if it holds a command (R63). -/
def assembleLine (line : List Char) : Option Packet :=
  match readLine line with
  | .command i => some (encode i)
  | _ => none

/-! Responses. -/

/-- The name of a status byte (R58); none for a code the block never returns. -/
def statusName (code : Byte) : Option (List Char) :=
  if code = okCode then some ['O', 'K']
  else if code = errorCode .short then some "ERR_SHORT".toList
  else if code = errorCode .msgType then some "ERR_MSG_TYPE".toList
  else if code = errorCode .authTag then some "ERR_AUTH_TAG".toList
  else if code = errorCode .authReplay then some "ERR_AUTH_REPLAY".toList
  else if code = errorCode .nodeId then some "ERR_NODE_ID".toList
  else if code = errorCode .cmd then some "ERR_CMD".toList
  else none

/-- A hexadecimal digit, in capitals. -/
def printHexDigit (v : Nat) : Char := if v < 10 then Char.ofNat (48 + v) else Char.ofNat (55 + v)

/-- A byte string in hexadecimal, the first byte first. -/
def printHex (s : Packet) : List Char :=
  s.flatMap (fun b => [printHexDigit (b.toNat / 16), printHexDigit (b.toNat % 16)])

/-- An unsigned number in decimal. -/
def printNat (v : Nat) : List Char := Nat.toDigits 10 v

/-- A signed number in decimal (log 18). -/
def printInt (v : Int) : List Char := if v < 0 then '-' :: printNat v.natAbs else printNat v.natAbs

/-- The members of a SensorFrame as numbers, in the assembler's order (R63). Of the two notations of R63 for a number,
decimal and `0x` hexadecimal, a response is printed in decimal (DESIGN CHOICE, log 18). -/
def printSensorFrame (f : SensorFrame) : List (List Char) :=
  [printNat f.nodeId.toNat, printNat f.txSeq.toNat, printInt (readI32 f.x), printInt (readI32 f.y),
   printInt (readI32 f.z), printInt (readI16 f.tempTenths)]

/-- The result fields of a response with status `OK`, for the command it answers (R53 to R56, R63). The fields of a DEC
response stand where those of an ENC command stand (R56). -/
def printFields (i : Instr) (result : Packet) : List (List Char) :=
  match i with
  | .kdf _ => [printHex (result.take 16), printHex (result.drop 16)]
  | .dec _ =>
    match decodeEnc (opEnc :: result) with
    | .enc f => printSensorFrame f
    | _ => [printHex result]
  | _ => [printHex result]

/-- A printed response: the status name, then the result fields in the notation of the operands (R63). -/
def printResponse (i : Instr) (response : Packet) : Option (List Char) :=
  match response with
  | [] => none
  | code :: result =>
    match statusName code with
    | none => none
    | some name =>
      if code = okCode ∧ result ≠ [] then
        some (name ++ ' ' :: List.intercalate [',', ' '] (printFields i result))
      else some name

end Sys2Proof.Machine
end

