-- ==== Sys2Proof/Machine/Fixtures.lean ====
section
/-!
DEFINITION. The two instantiations of `H` that the spec defines for testing only (40_primitives.md R79, R80). Neither is
a statement about the hardware's `H`, which stays opaque; PRESUMED by the spec itself (U1, U21; log 23).
-/

namespace Sys2Proof.Machine

/-- `LE64(v)` (R79, R80). -/
def le64 (v : BitVec 64) : Bytes 8 :=
  bytesOfList ((List.range 8).map (fun i => BitVec.ofNat 8 (v.toNat / 2 ^ (8 * i) % 256))) (by simp)

/-- The four words of the SipHash state (R79). -/
structure SipState where
  v0 : BitVec 64
  v1 : BitVec 64
  v2 : BitVec 64
  v3 : BitVec 64
deriving DecidableEq, Repr

/-- One SipRound (R79). -/
def sipRound (s : SipState) : SipState :=
  let a0 := s.v0 + s.v1
  let a1 := s.v1.rotateLeft 13 ^^^ a0
  let b0 := a0.rotateLeft 32
  let a2 := s.v2 + s.v3
  let a3 := s.v3.rotateLeft 16 ^^^ a2
  let c0 := b0 + a3
  let b3 := a3.rotateLeft 21 ^^^ c0
  let b2 := a2 + a1
  let b1 := a1.rotateLeft 17 ^^^ b2
  { v0 := c0, v1 := b1, v2 := b2.rotateLeft 32, v3 := b3 }

/-- Absorption of one 64-bit word: two rounds (R79). -/
def sipAbsorb (s : SipState) (m : BitVec 64) : SipState :=
  let t := sipRound (sipRound { s with v3 := s.v3 ^^^ m })
  { t with v0 := t.v0 ^^^ m }

/-- Absorption of the `q` whole 8-byte words of a message (R79). -/
def sipAbsorbWords : Nat → SipState → Packet → SipState
  | 0, s, _ => s
  | q + 1, s, msg => sipAbsorbWords q (sipAbsorb s (BitVec.ofNat 64 (numberOfBytes (msg.take 8)))) (msg.drop 8)

/-- `H_SIP`, SipHash-2-4 (R79). -/
def hSip (key : Key) (msg : Packet) : HashOutput :=
  let k0 := BitVec.ofNat 64 (numberOfBytes (key.toList.take 8))
  let k1 := BitVec.ofNat 64 (numberOfBytes (key.toList.drop 8))
  let start : SipState :=
    { v0 := k0 ^^^ 0x736f6d6570736575, v1 := k1 ^^^ 0x646f72616e646f6d,
      v2 := k0 ^^^ 0x6c7967656e657261, v3 := k1 ^^^ 0x7465646279746573 }
  let q := msg.length / 8
  let last := msg.length % 256 * 2 ^ 56 + numberOfBytes (msg.drop (8 * q))
  let s := sipAbsorb (sipAbsorbWords q start msg) (BitVec.ofNat 64 last)
  let t := sipRound (sipRound (sipRound (sipRound { s with v2 := s.v2 ^^^ 0xff })))
  le64 (t.v0 ^^^ t.v1 ^^^ t.v2 ^^^ t.v3)

/-- `H_TEST`: 64-bit FNV-1a over the key followed by the message (R80). -/
def hTest (key : Key) (msg : Packet) : HashOutput :=
  le64 ((key.toList ++ msg).foldl (fun s b => (s ^^^ b.setWidth 64) * 0x100000001b3) 0xcbf29ce484222325)

/-- The fixed parameters of 95_test_vectors.md: `MK = 00 01 ... 0F`, `MAX_NODES = 4`, `MSG_TYPE = 0x01`. -/
def fixtureParams (hash : Key → Packet → HashOutput) : Params :=
  { hash, maxNodesPred := 3, msgType := 0x01,
    masterKey := bytesOfList ((List.range 16).map (BitVec.ofNat 8)) (by simp) }

end Sys2Proof.Machine
end

