-- ==== Sys2Proof/Machine/HashCalls.lean ====
section
/-!
DEFINITION. The invocations of `H` a command makes, in the order of its rule (40_primitives.md R69; 43_frame_codec.md
R109; 70_reset_and_hazards.md R146). `H` is stateless, so the order cannot be observed (U19; log 21).
-/

namespace Sys2Proof.Machine

/-- The four invocations of `KDF(id)`, all under `MK` (R81). -/
def kdfCalls (c : Params) (nodeId : Byte) : List (Key × Packet) :=
  [(c.masterKey, label .enc nodeId), (c.masterKey, extendedLabel .enc nodeId),
   (c.masterKey, label .mac nodeId), (c.masterKey, extendedLabel .mac nodeId)]

/-- The invocations of `KSG(K, N, n)`, one per block (R87); a block index of 2^32 or more as in `keystreamBlock` (log 29). -/
def ksgCalls (k : Key) (nonce : U32) (n : Nat) : List (Key × Packet) :=
  (List.range (blockCount n)).map (fun b => (k, blockMessage nonce (BitVec.ofNat 32 b)))

/-- The invocations of `ENCODE`; none if the node id is rejected (R95, R96). -/
def encCalls (c : Params) (f : SensorFrame) : List (Key × Packet) :=
  if nodeIdInvalid c f.nodeId then []
  else
    let keys := kdf c f.nodeId
    let ct := xorBytes (pack c f.x f.y f.z f.tempTenths) (ksg c keys.enc f.txSeq 15)
    kdfCalls c f.nodeId ++ (ksgCalls keys.enc f.txSeq 15 ++ [(keys.mac, taggedMessage f.nodeId f.txSeq ct)])

/-- The invocations of `DECODE`: none for a short frame, no keystream unless the tag check and the replay check have
passed (R98, R109). -/
def decCalls (c : Params) (data : Packet) (seqt : Memory) : List (Key × Packet) :=
  match frameOfData data with
  | none => []
  | some f =>
    let verify := kdfCalls c f.nodeId ++ [((kdf c f.nodeId).mac, data.take 20)]
    if !tagsEqual (expectedTag c data f) f.tag then verify
    else if isReplay (memRead seqt f.nodeId) f.txSeq then verify
    else verify ++ ksgCalls (kdf c f.nodeId).enc f.txSeq 15

/-- The invocations of `H` a command makes (R69). -/
def hashCalls (c : Params) (i : Instr) (seqt : Memory) : List (Key × Packet) :=
  match i with
  | .kdf nodeId => kdfCalls c nodeId
  | .ksg key nonce n => ksgCalls key nonce n.toNat
  | .enc frame => encCalls c frame
  | .dec data => decCalls c data seqt
  | .reserved _ => []

end Sys2Proof.Machine
end

