-- ==== Sys2Proof/Machine/Transaction.lean ====
section
/-!
DEFINITION. A command as the spec shapes it for a model (10_state.md R27): a configuration, the contents of SEQT and a
command packet go in, the contents of SEQT and a response packet come out. The machine's `exec` is this with the block's
own parameters; with other parameters it is another block (a peer, or a test instantiation of `H`).
-/

namespace Sys2Proof.Machine

/-- What a command does under the parameters `c` (R27, R59). -/
def transact (c : Params) (i : Instr) (seqt : Memory) : Reply :=
  match i with
  | .kdf nodeId => kdfCommand c nodeId seqt
  | .ksg key nonce n => ksgCommand c key nonce n seqt
  | .enc frame => encCommand c frame seqt
  | .dec data => decCommand c data seqt
  | .reserved packet => reservedCommand packet seqt

/-- A packet's response and the contents of SEQT after it (R27, R47). -/
def transactPacket (c : Params) (p : Packet) (seqt : Memory) : Memory × Packet :=
  let r := transact c (decode p) seqt
  (r.seqt, responsePacket r)

end Sys2Proof.Machine
end

