-- ==== Sys2Proof/Safety.lean ====
section
/-!
DEFINITION. What claims about the machine speak of: the invariant of SEQT (10_state.md R19 (a)), how a command may change
SEQT (R19 (b) to (d)), runs of commands between two resets, and the conditions DEC tests (60_exceptions.md R114).
-/

namespace Sys2Proof.Machine

/-- The state after a command that leaves SEQT as `seqt` and answers with `packet`: one response more, and nothing else
changed (R37, R47). -/
def State.answered (s : State) (seqt : Memory) (packet : Packet) : State :=
  { seqt, inputs := s.inputs, responses := s.responses ++ [packet] }

/-- A packet that is no command: it is empty, its opcode is not 0x01..0x04, or its length is not the one its format
requires (R59, R60, R120). -/
def NotACommand (p : Packet) : Prop :=
  p = [] ∨
  (∃ op, p[0]? = some op ∧ op ≠ 0x01 ∧ op ≠ 0x02 ∧ op ≠ 0x03 ∧ op ≠ 0x04) ∨
  (p[0]? = some 0x01 ∧ p.length ≠ 2) ∨
  (p[0]? = some 0x02 ∧ p.length ≠ 25) ∨
  (p[0]? = some 0x03 ∧ p.length ≠ 20) ∨
  (p[0]? = some 0x04 ∧ ¬ ∃ len : Byte, p[1]? = some len ∧ p.length = 2 + len.toNat)

/-- R19 (a): an entry that is not valid holds sequence number 0. -/
def SeqtZeroWhenInvalid (m : Memory) : Prop := ∀ i : Byte, (memRead m i).valid = false → (memRead m i).last = 0

/-- The invariant of the machine: SEQT is in canonical form, and R19 (a) holds. -/
def State.Inv (s : State) : Prop := Memory.wf s.seqt = true ∧ SeqtZeroWhenInvalid s.seqt

/-- R19 (b), (c): an entry stays as it is, or becomes valid with a sequence number that, if it was valid before, is
strictly greater. -/
def EntryAdvances (before after : SeqEntry) : Prop :=
  after = before ∨ (after.valid = true ∧ (before.valid = true → before.last.toNat < after.last.toNat))

/-- R19 (b) to (d) for a whole command: every entry advances, and at most the entry `i` differs. -/
def SeqtAdvancesAt (i : Byte) (before after : Memory) : Prop :=
  EntryAdvances (memRead before i) (memRead after i) ∧ ∀ j : Byte, j ≠ i → memRead after j = memRead before j

/-- Commands executed one after another, with no reset between them (R37, R111). -/
inductive CommandRun : State → State → Prop where
  | refl (s : State) : CommandRun s s
  | tail {s t u : State} (i : Instr) : CommandRun s t → exec i t = .next u → CommandRun s u

/-- Steps of the machine, resets included. -/
inductive StepRun : State → State → Prop where
  | refl (s : State) : StepRun s s
  | tail {s t u : State} : StepRun s t → step t = .next u → StepRun s u

/-- The frame in received data passes the tag check: `H(K_mac, f[0..19])`, under the subkey of the received node id, is
the received tag (R102). -/
def TagPasses (c : Params) (data : Packet) (f : SecureFrame) : Prop :=
  c.hash (kdf c f.nodeId).mac (data.take 20) = f.tag

/-- The 15 plaintext bytes of a frame: its ciphertext xor the keystream of its node id and sequence number (R105). -/
def plaintextOf (c : Params) (f : SecureFrame) : Packet :=
  List.zipWith (· ^^^ ·) f.ciphertext.toList (ksg c (kdf c f.nodeId).enc f.txSeq 15).toList

/-- A sequence number is fresh for a node id: no frame of it has been accepted, or the last one accepted is smaller
(R103). -/
def Fresh (m : Memory) (nodeId : Byte) (txSeq : U32) : Prop :=
  (memRead m nodeId).valid = true → (memRead m nodeId).last.toNat < txSeq.toNat

/-- A valid node id: 1..`MAX_NODES` (R15). -/
def NodeIdValid (c : Params) (nodeId : Byte) : Prop := 1 ≤ nodeId.toNat ∧ nodeId.toNat ≤ c.maxNodes

end Sys2Proof.Machine
end

