-- ==== Sys2Proof/Certificates/Slice0/Obligations.lean ====
section
/-!
DEFINITION. The statements about the machine that the provers are given. Each docstring names the rule of spec/ it
formalises; where the spec marks a rule as its own inference ([derived]), the docstring says so. `Config.block`, the
parameters of the block, has no body: what is stated of it holds for every `H`, `MK`, `MAX_NODES` and `MSG_TYPE`.
Throughout, that a response is appended to `responses` and an event taken from `inputs` is the form the model gives to R47
and R147 (DESIGN CHOICE, log 5); statements about `exec` of a term that no packet decodes to, such as a DEC of more than 255
bytes or a RESERVED that carries a command, rest on log 19 (DESIGN CHOICE) as far as those terms go.
-/

open Sys2Proof Sys2Proof.Machine

/-! Packets. -/

/-- Decoding the packet of a well-formed command gives the command back, with every operand (R48 to R51, R61). -/
def Obligations.DecodeOfEncodeIsIdentity : Prop :=
  ∀ i : Instr, i.wellFormed = true → decode (encode i) = i

/-- The decoder is total, answers only well-formed commands, and drops no byte of a packet: encoding what it reads gives
the packet back (R59 to R61; that RESERVED carries a malformed packet is the model's choice, DESIGN CHOICE, log 19). -/
def Obligations.EncodeOfDecodeIsIdentity : Prop :=
  ∀ p : Packet, (decode p).wellFormed = true ∧ encode (decode p) = p

/-- A packet of a command's opcode and length decodes to that command, each operand from its offsets, integers
little-endian (R61, R62). -/
def Obligations.DecodeFollowsTheFormats : Prop :=
  ∀ p : Packet,
    (p.length = 2 → p[0]? = some 0x01 → ∃ id, p[1]? = some id ∧ decode p = .kdf id) ∧
    (p.length = 25 → p[0]? = some 0x02 →
      ∃ key nonce n, decode p = .ksg key nonce n ∧ key.toList = (p.drop 1).take 16 ∧
        nonce.toNat = numberOfBytes ((p.drop 17).take 4) ∧ n.toNat = numberOfBytes ((p.drop 21).take 4)) ∧
    (p.length = 20 → p[0]? = some 0x03 →
      ∃ f, decode p = .enc f ∧ p[1]? = some f.nodeId ∧ f.txSeq.toNat = numberOfBytes ((p.drop 2).take 4) ∧
        f.x.toList = (p.drop 6).take 4 ∧ f.y.toList = (p.drop 10).take 4 ∧ f.z.toList = (p.drop 14).take 4 ∧
        f.tempTenths.toList = (p.drop 18).take 2) ∧
    (∀ len : Byte, p[0]? = some 0x04 → p[1]? = some len → p.length = 2 + len.toNat → decode p = .dec (p.drop 2))

/-- A packet decodes to RESERVED exactly when it is empty, has a reserved opcode or has the wrong length, and such a
packet is answered `ERR_CMD` and changes no state (R60, R120, the spec's decision D6). That it decodes to RESERVED carrying
itself is the model's choice (DESIGN CHOICE, log 19), as is the field `inputs` it is taken from (DESIGN CHOICE, log 5). -/
def Obligations.MalformedPacketsAnswerErrCmd : Prop :=
  ∀ p : Packet,
    ((∃ q, decode p = .reserved q) ↔ NotACommand p) ∧
    (NotACommand p → decode p = .reserved p) ∧
    (NotACommand p → ∀ (s : State) (rest : List HostEvent), s.inputs = .command p :: rest →
      step s = .next { seqt := s.seqt, inputs := rest, responses := s.responses ++ [[0x06]] })

/-- The meaning of RESERVED: the one-byte response `ERR_CMD`, no state change (R120). That it is the same whatever packet
RESERVED carries is the model's choice (DESIGN CHOICE, log 19). -/
def Obligations.ReservedAnswersErrCmd : Prop :=
  ∀ (packet : Packet) (s : State), exec (.reserved packet) s = .next (s.answered s.seqt [0x06])

/-- Packets written out from the formats of R48 to R51 decode to the commands they stand for. -/
def Obligations.DecodeSampleWords : Prop :=
  decode [0x01, 0xFF] = .kdf 0xFF ∧
  decode [0x02, 0, 1, 2, 3, 4, 5, 6, 7, 8, 9, 10, 11, 12, 13, 14, 15, 0x04, 0x03, 0x02, 0x01, 0x0F, 0x00, 0x00, 0x80]
    = .ksg #v[0, 1, 2, 3, 4, 5, 6, 7, 8, 9, 10, 11, 12, 13, 14, 15] 0x01020304 0x8000000F ∧
  decode [0x03, 0x01, 0x05, 0x00, 0x00, 0x00, 0xE8, 0x03, 0x00, 0x00, 0x0C, 0xFE, 0xFF, 0xFF, 0xC8, 0x00, 0x00, 0x00,
      0xE1, 0x00]
    = .enc { nodeId := 1, txSeq := 5, x := #v[0xE8, 0x03, 0x00, 0x00], y := #v[0x0C, 0xFE, 0xFF, 0xFF],
             z := #v[0xC8, 0x00, 0x00, 0x00], tempTenths := #v[0xE1, 0x00] } ∧
  decode [0x04, 0x03, 0x01, 0x02, 0x03] = .dec [0x01, 0x02, 0x03] ∧
  decode [0x04, 0x02, 0xAA] = .reserved [0x04, 0x02, 0xAA]

/-! Steps. -/

/-- A step whose next event is a packet that decodes to a well-formed command runs that command, with the event taken;
in particular the packet placed by `withFetchWord` (R37, R47, R61; the field `inputs` is the model's choice, logs 5
and 6). -/
def Obligations.StepRunsDecodedCommand : Prop :=
  (∀ (s : State) (p : Packet) (rest : List HostEvent) (i : Instr),
    s.inputs = .command p :: rest → decode p = i → i.wellFormed = true →
    step s = exec i { seqt := s.seqt, inputs := rest, responses := s.responses }) ∧
  (∀ (s : State) (nbits w : Nat) (i : Instr),
    decodeTableWord nbits w = some i → step (s.withFetchWord nbits w) = exec i s)

/-- A reset event makes every SEQT entry invalid with sequence number 0 (R132) and gets no response (R147). That the
responses given and the events still to come stay as they are is the model's choice (DESIGN CHOICE, log 8): the two
fields are its own. -/
def Obligations.ResetEventClearsSeqt : Prop :=
  ∀ (s : State) (rest : List HostEvent), s.inputs = .reset :: rest →
    ∃ t, step s = .next t ∧ (∀ i : Byte, memRead t.seqt i = { valid := false, last := 0 }) ∧
      t.inputs = rest ∧ t.responses = s.responses

/-- In the reset state every SEQT entry is invalid with sequence number 0 (R17, R26; for the valid bit
R18, the spec's decision D12, log 4). -/
def Obligations.ResetStateIsClear : Prop :=
  ∀ i : Byte, (memRead State.reset.seqt i).last = 0 ∧ (memRead State.reset.seqt i).valid = false

/-- With no event pending a step changes nothing. This is the model's choice for an idle block (log 7). -/
def Obligations.IdleStepChangesNothing : Prop :=
  ∀ s : State, s.inputs = [] → step s = .next s

/-- The block never stops: every step answers a next state, and every command gets exactly one response, whose status
is one of 0x00..0x06 and which is that one byte unless the status is `OK` (R47, R52, R57, R58, R113, R126). That a step
answers a next state is DEDUCED from R113 and R126 (log 22) and, with no event pending, the model's choice (DESIGN
CHOICE, log 7). -/
def Obligations.EveryPacketGetsOneResponse : Prop :=
  (∀ s : State, ∃ t, step s = .next t) ∧
  (∀ (i : Instr) (s : State), ∃ (m : Memory) (code : Byte) (rest : Packet),
    exec i s = .next (s.answered m (code :: rest)) ∧ code.toNat ≤ 6 ∧ (code ≠ 0x00 → rest = []))

/-- The lengths of successful responses: 33 bytes for KDF, 1 + n for KSG, 29 for ENC, 20 for DEC (R53 to R56). -/
def Obligations.OkResponseLengths : Prop :=
  ∀ (i : Instr) (s t : State) (rest : Packet),
    exec i s = .next t → t.responses = s.responses ++ [0x00 :: rest] →
    match i with
    | .kdf _ => (0x00 :: rest : Packet).length = 33
    | .ksg _ _ n => (0x00 :: rest : Packet).length = 1 + n.toNat
    | .enc _ => (0x00 :: rest : Packet).length = 29
    | .dec _ => (0x00 :: rest : Packet).length = 20
    | .reserved _ => False

/-- What a command does depends on the contents of SEQT and on nothing else that came before it: no error is sticky
(R13; R123, which
the spec marks as derived from R13). -/
def Obligations.CommandSeesOnlySeqt : Prop :=
  ∀ (i : Instr) (s₁ s₂ : State), s₁.seqt = s₂.seqt →
    ∃ (m : Memory) (r : Packet), exec i s₁ = .next (s₁.answered m r) ∧ exec i s₂ = .next (s₂.answered m r)

/-- Issued again at once, KDF, KSG and ENC answer the same and change nothing; a DEC that answered `OK`, `ERR_MSG_TYPE`
or `ERR_NODE_ID` has written SEQT and answers `ERR_AUTH_REPLAY`; a packet that answered `ERR_CMD`, `ERR_SHORT`,
`ERR_AUTH_TAG` or `ERR_AUTH_REPLAY` has changed nothing and answers the same (R34, which the spec marks as derived from
R98). -/
def Obligations.RepeatedPackets : Prop :=
  ∀ (p : Packet) (s t : State) (code : Byte) (rest : Packet),
    exec (decode p) s = .next t → t.responses = s.responses ++ [code :: rest] →
    ((∀ data, decode p ≠ .dec data) →
      t.seqt = s.seqt ∧ exec (decode p) t = .next (t.answered t.seqt (code :: rest))) ∧
    (∀ data, decode p = .dec data → code ∈ [0x00, 0x02, 0x05] →
      t.seqt ≠ s.seqt ∧ exec (decode p) t = .next (t.answered t.seqt [0x04])) ∧
    (code ∈ [0x06, 0x01, 0x03, 0x04] →
      t.seqt = s.seqt ∧ exec (decode p) t = .next (t.answered t.seqt (code :: rest)))

/-! Primitives. -/

/-- `LE32`, `unLE32` and `LE16`, `unLE16` are inverse bijections, with the rule's examples (R70, which the spec marks
as derived from R8). -/
def Obligations.LittleEndianInverse : Prop :=
  (∀ v : U32, unLe32 (le32 v) = v) ∧ (∀ s : Bytes 4, le32 (unLe32 s) = s) ∧
  (∀ v : U16, unLe16 (le16 v) = v) ∧ (∀ s : Bytes 2, le16 (unLe16 s) = s) ∧
  le32 0 = #v[0x00, 0x00, 0x00, 0x00] ∧ le32 5 = #v[0x05, 0x00, 0x00, 0x00] ∧
  le32 0x01020304 = #v[0x04, 0x03, 0x02, 0x01] ∧ le32 0xFFFFFFFF = #v[0xFF, 0xFF, 0xFF, 0xFF] ∧
  le16 225 = #v[0xE1, 0x00]

/-- XOR of byte strings is byte by byte, commutative, associative, and undone by itself (R71). -/
def Obligations.XorLaws : Prop :=
  ∀ (n : Nat) (a b c : Bytes n),
    (∀ (i : Nat) (h : i < n), (xorBytes a b)[i] = a[i] ^^^ b[i]) ∧
    xorBytes a b = xorBytes b a ∧
    xorBytes (xorBytes a b) c = xorBytes a (xorBytes b c) ∧
    xorBytes (xorBytes a b) b = a

/-- The signed fields are two's-complement integers, least significant byte first: every number in range is read back
from its bytes, with the rule's examples. The convention is PRESUMED by the spec (R73, U9; log 11). -/
def Obligations.SignedFieldsAreTwosComplement : Prop :=
  (∀ v : Int, -2147483648 ≤ v → v ≤ 2147483647 → readI32 (writeI32 v) = v) ∧
  (∀ v : Int, -32768 ≤ v → v ≤ 32767 → readI16 (writeI16 v) = v) ∧
  (∀ s : Bytes 4, readI32 s =
    if numberOfBytes s.toList < 2147483648 then (numberOfBytes s.toList : Int)
    else (numberOfBytes s.toList : Int) - 4294967296) ∧
  (∀ s : Bytes 2, readI16 s =
    if numberOfBytes s.toList < 32768 then (numberOfBytes s.toList : Int)
    else (numberOfBytes s.toList : Int) - 65536) ∧
  writeI32 1000 = #v[0xE8, 0x03, 0x00, 0x00] ∧ writeI32 (-500) = #v[0x0C, 0xFE, 0xFF, 0xFF] ∧
  writeI32 200 = #v[0xC8, 0x00, 0x00, 0x00] ∧ writeI16 225 = #v[0xE1, 0x00] ∧ writeI16 (-1) = #v[0xFF, 0xFF] ∧
  writeI32 (-2147483648) = #v[0x00, 0x00, 0x00, 0x80]

/-- Packing and unpacking lose nothing (R76, which the spec marks as derived from R74 and R75). -/
def Obligations.PackUnpackInverse : Prop :=
  ∀ c : Params,
    (∀ (x y z : Bytes 4) (tb : Bytes 2),
      unpack (pack c x y z tb) = { msgType := c.msgType, x, y, z, tempTenths := tb }) ∧
    (∀ (pt : Payload) (x y z : Bytes 4) (tb : Bytes 2),
      unpack pt = { msgType := c.msgType, x, y, z, tempTenths := tb } → pack c x y z tb = pt)

/-! Key derivation. -/

/-- `KDF(id)`: each subkey is the hash of its label and then the hash of its label and 0xA5, under the master key; these
are its four invocations of `H` (R81; that all four are made under the master key the spec marks as derived). -/
def Obligations.KdfHashesItsLabels : Prop :=
  ∀ (c : Params) (id : Byte),
    (kdf c id).enc.toList =
      (c.hash c.masterKey [0x45, 0x4E, 0x43, id, 0x00, 0x01]).toList ++
      (c.hash c.masterKey [0x45, 0x4E, 0x43, id, 0x00, 0x01, 0xA5]).toList ∧
    (kdf c id).mac.toList =
      (c.hash c.masterKey [0x4D, 0x41, 0x43, id, 0x00, 0x01]).toList ++
      (c.hash c.masterKey [0x4D, 0x41, 0x43, id, 0x00, 0x01, 0xA5]).toList ∧
    ∀ m : Memory, hashCalls c (.kdf id) m =
      [(c.masterKey, [0x45, 0x4E, 0x43, id, 0x00, 0x01]), (c.masterKey, [0x45, 0x4E, 0x43, id, 0x00, 0x01, 0xA5]),
       (c.masterKey, [0x4D, 0x41, 0x43, id, 0x00, 0x01]), (c.masterKey, [0x4D, 0x41, 0x43, id, 0x00, 0x01, 0xA5])]

/-- The command KDF answers `00`, `K_enc`, `K_mac` for every node id byte, valid or not, and changes nothing else (R53,
R82). -/
def Obligations.KdfAnswersBothSubkeys : Prop :=
  ∀ (id : Byte) (s : State),
    exec (.kdf id) s =
      .next (s.answered s.seqt (0x00 :: ((kdf Config.block id).enc.toList ++ (kdf Config.block id).mac.toList)))

/-- The label messages of all node ids are pairwise distinct: 1024 of them, told apart by purpose, by length and by the
node id in byte 3 (R84, which the spec marks as derived from R44). -/
def Obligations.LabelMessagesDistinct : Prop :=
  let message : Purpose → Bool → Byte → Packet :=
    fun p extended id => if extended then extendedLabel p id else label p id
  (∀ (p q : Purpose) (e g : Bool) (i j : Byte), message p e i = message q g j → p = q ∧ e = g ∧ i = j) ∧
  (∀ (p : Purpose) (e : Bool) (i : Byte), (message p e i)[3]? = some i)

/-! Keystream. -/

/-- `KSG(K, N, n)` has exactly `n` bytes, and its byte `j` is byte `j mod 8` of the hash of
`'S' ∥ LE32(N) ∥ LE32(j div 8)` under `K` (R87). -/
def Obligations.KeystreamBytes : Prop :=
  ∀ (c : Params) (k : Key) (nonce n : U32),
    (ksg c k nonce n.toNat).toList.length = n.toNat ∧
    ∀ j : Nat, j < n.toNat →
      (ksg c k nonce n.toNat).toList[j]? =
        (c.hash k (0x53 :: ((le32 nonce).toList ++ (le32 (BitVec.ofNat 32 (j / 8))).toList))).toList[j % 8]?

/-- The command KSG answers `00` and the `n` keystream bytes, and changes nothing else (R54, R89). -/
def Obligations.KsgAnswersTheKeystream : Prop :=
  ∀ (key : Key) (nonce n : U32) (s : State),
    ∃ ks : Packet,
      exec (.ksg key nonce n) s = .next (s.answered s.seqt (0x00 :: ks)) ∧ ks.length = n.toNat ∧
      ∀ j : Nat, j < n.toNat →
        ks[j]? = (Config.block.hash key
          (0x53 :: ((le32 nonce).toList ++ (le32 (BitVec.ofNat 32 (j / 8))).toList))).toList[j % 8]?

/-- A shorter keystream is the beginning of a longer one (R90, which the spec marks as derived from R87 and R88). For
lengths that no command asks for, so long that a block index passes 2^32 - 1, it speaks of the model's choice (DESIGN
CHOICE, log 29). -/
def Obligations.KeystreamPrefix : Prop :=
  ∀ (c : Params) (k : Key) (nonce : U32) (n n' : Nat), n ≤ n' →
    (ksg c k nonce n).toList = (ksg c k nonce n').toList.take n

/-- A keystream of length 0 is empty and invokes `H` not at all (R91, which the spec marks as derived from R87). -/
def Obligations.KeystreamOfLengthZero : Prop :=
  ∀ (c : Params) (k : Key) (nonce : U32) (m : Memory),
    (ksg c k nonce 0).toList = [] ∧ hashCalls c (.ksg k nonce 0) m = [] ∧
    responsePacket (transact c (.ksg k nonce 0) m) = [0x00]

/-- Distinct pairs of nonce and block index give distinct block messages, and no block index of a command wraps (R92,
R93, which the spec marks as derived from R87 and R49). -/
def Obligations.BlockMessagesDistinct : Prop :=
  (∀ nonce nonce' b b' : U32, blockMessage nonce b = blockMessage nonce' b' → nonce = nonce' ∧ b = b') ∧
  (∀ (n : U32) (b : Nat), b < blockCount n.toNat → b < 2 ^ 29 ∧ (BitVec.ofNat 32 b : U32).toNat = b)

/-! Encode. -/

/-- The command ENC, for a valid node id and every other operand: the frame is the node id, the sequence number, the
payload xor 15 keystream bytes, and the tag of those 20 bytes; nothing else changes (R55, R95, R96). -/
def Obligations.EncAnswersTheFrame : Prop :=
  ∀ (f : SensorFrame) (s : State), NodeIdValid Config.block f.nodeId →
    let keys := kdf Config.block f.nodeId
    let pt : Packet := Config.block.msgType :: (f.x.toList ++ f.y.toList ++ f.z.toList ++ f.tempTenths.toList)
    let ct : Packet := List.zipWith (· ^^^ ·) pt (ksg Config.block keys.enc f.txSeq 15).toList
    let tagged : Packet := f.nodeId :: ((le32 f.txSeq).toList ++ ct)
    exec (.enc f) s =
      .next (s.answered s.seqt (0x00 :: (tagged ++ (Config.block.hash keys.mac tagged).toList)))

/-- ENC with node id 0 or above `MAX_NODES` answers `ERR_NODE_ID`, computes no hash and changes nothing (R95, R96,
R119). -/
def Obligations.EncRejectsInvalidNodeId : Prop :=
  ∀ (f : SensorFrame) (s : State),
    (f.nodeId.toNat = 0 ∨ Config.block.maxNodes < f.nodeId.toNat) →
    exec (.enc f) s = .next (s.answered s.seqt [0x05]) ∧ hashCalls Config.block (.enc f) s.seqt = []

/-- Two frames of one node id and sequence number are encrypted under the same keystream: the XOR of their ciphertexts
is the XOR of their plaintexts (R97 (b), which the spec marks as derived from R95). -/
def Obligations.ReusedSequenceNumberReusesKeystream : Prop :=
  ∀ (c : Params) (f g : SensorFrame) (F G : FrameBytes),
    g.nodeId = f.nodeId → g.txSeq = f.txSeq → encodeFrame c f = .ok F → encodeFrame c g = .ok G →
    List.zipWith (· ^^^ ·) ((F.toList.drop 5).take 15) ((G.toList.drop 5).take 15) =
      List.zipWith (· ^^^ ·) (c.msgType :: (f.x.toList ++ f.y.toList ++ f.z.toList ++ f.tempTenths.toList))
        (c.msgType :: (g.x.toList ++ g.y.toList ++ g.z.toList ++ g.tempTenths.toList))

/-! Decode. -/

/-- Received data of 28 bytes or more splits into node id, sequence number, ciphertext and tag, with no value rejected
(R41, R98 steps 1 to 3, R101). -/
def Obligations.ReceivedFrameSplit : Prop :=
  ∀ data : Packet, 28 ≤ data.length →
    ∃ f, frameOfData data = some f ∧ data[0]? = some f.nodeId ∧
      f.txSeq.toNat = numberOfBytes ((data.drop 1).take 4) ∧ f.ciphertext.toList = (data.drop 5).take 15 ∧
      f.tag.toList = (data.drop 20).take 8

/-- Data of fewer than 28 bytes, none included, is answered `ERR_SHORT`, with no hash computed and no state changed; of
longer data only the first 28 bytes matter to response and state (R100). -/
def Obligations.DecChecksTheLengthFirst : Prop :=
  (∀ (data : Packet) (s : State), data.length < 28 →
    exec (.dec data) s = .next (s.answered s.seqt [0x01]) ∧ hashCalls Config.block (.dec data) s.seqt = []) ∧
  (∀ (data : Packet) (s : State), 28 ≤ data.length → exec (.dec data) s = exec (.dec (data.take 28)) s)

/-- A frame whose tag does not verify is answered `ERR_AUTH_TAG` and changes nothing, whatever its node id and sequence
number; no keystream is generated: the invocations of `H` are those of the two subkeys and of the tag (R102, R117). -/
def Obligations.DecRejectsWrongTag : Prop :=
  ∀ (data : Packet) (f : SecureFrame) (s : State),
    frameOfData data = some f → ¬ TagPasses Config.block data f →
    exec (.dec data) s = .next (s.answered s.seqt [0x03]) ∧
    hashCalls Config.block (.dec data) s.seqt =
      kdfCalls Config.block f.nodeId ++ [((kdf Config.block f.nodeId).mac, data.take 20)]

/-- The replay check of an authentic frame: it fails exactly when an accepted sequence number of that node id is not
smaller, with `ERR_AUTH_REPLAY` and nothing written; otherwise the status is another one and the entry holds the frame's
number. It is made only after the tag check has passed: without that the status is never `ERR_AUTH_REPLAY` (R103). -/
def Obligations.DecReplayCheck : Prop :=
  ∀ (data : Packet) (f : SecureFrame) (s : State),
    frameOfData data = some f →
    (¬ TagPasses Config.block data f → exec (.dec data) s = .next (s.answered s.seqt [0x03])) ∧
    (TagPasses Config.block data f → (memRead s.seqt f.nodeId).valid = true →
      f.txSeq.toNat ≤ (memRead s.seqt f.nodeId).last.toNat →
      exec (.dec data) s = .next (s.answered s.seqt [0x04])) ∧
    (TagPasses Config.block data f →
      (memRead s.seqt f.nodeId).valid = false ∨ (memRead s.seqt f.nodeId).last.toNat < f.txSeq.toNat →
      ∃ (m : Memory) (code : Byte) (rest : Packet), exec (.dec data) s = .next (s.answered m (code :: rest)) ∧
        code ≠ 0x04 ∧ code ≠ 0x03 ∧ memRead m f.nodeId = { valid := true, last := f.txSeq })

/-- An authentic, fresh frame updates its own entry and no other, whatever its message type and node id are (R104). -/
def Obligations.DecRecordsTheSequenceNumber : Prop :=
  ∀ (data : Packet) (f : SecureFrame) (s : State),
    frameOfData data = some f → TagPasses Config.block data f → Fresh s.seqt f.nodeId f.txSeq →
    ∃ (m : Memory) (r : Packet), exec (.dec data) s = .next (s.answered m r) ∧
      ∀ j : Byte, memRead m j = if j = f.nodeId then { valid := true, last := f.txSeq } else memRead s.seqt j

/-- An authentic, fresh frame whose plaintext does not begin with `MSG_TYPE` is answered `ERR_MSG_TYPE`; its entry keeps
the update (R106, R116). -/
def Obligations.DecRejectsWrongMessageType : Prop :=
  ∀ (data : Packet) (f : SecureFrame) (s : State),
    frameOfData data = some f → TagPasses Config.block data f → Fresh s.seqt f.nodeId f.txSeq →
    (plaintextOf Config.block f)[0]? ≠ some Config.block.msgType →
    ∃ m : Memory, exec (.dec data) s = .next (s.answered m [0x02]) ∧
      ∀ j : Byte, memRead m j = if j = f.nodeId then { valid := true, last := f.txSeq } else memRead s.seqt j

/-- An authentic, fresh frame with the right message type and node id 0 or above `MAX_NODES` is answered `ERR_NODE_ID`;
its entry keeps the update (R107, R119). -/
def Obligations.DecRejectsInvalidNodeId : Prop :=
  ∀ (data : Packet) (f : SecureFrame) (s : State),
    frameOfData data = some f → TagPasses Config.block data f → Fresh s.seqt f.nodeId f.txSeq →
    (plaintextOf Config.block f)[0]? = some Config.block.msgType →
    (f.nodeId.toNat = 0 ∨ Config.block.maxNodes < f.nodeId.toNat) →
    ∃ m : Memory, exec (.dec data) s = .next (s.answered m [0x05]) ∧
      ∀ j : Byte, memRead m j = if j = f.nodeId then { valid := true, last := f.txSeq } else memRead s.seqt j

/-- An authentic, fresh frame with the right message type and a valid node id is answered `OK`, the node id, the
sequence number and the 14 plaintext bytes after the message type; its entry holds its number (R56, R99, R108). -/
def Obligations.DecAnswersTheSensorFrame : Prop :=
  ∀ (data : Packet) (f : SecureFrame) (s : State),
    frameOfData data = some f → TagPasses Config.block data f → Fresh s.seqt f.nodeId f.txSeq →
    (plaintextOf Config.block f)[0]? = some Config.block.msgType → NodeIdValid Config.block f.nodeId →
    ∃ m : Memory,
      exec (.dec data) s =
        .next (s.answered m
          (0x00 :: f.nodeId :: ((le32 f.txSeq).toList ++ (plaintextOf Config.block f).drop 1))) ∧
      ∀ j : Byte, memRead m j = if j = f.nodeId then { valid := true, last := f.txSeq } else memRead s.seqt j

/-- The status of every command is the first that applies: `ERR_CMD`; for DEC then `ERR_SHORT`, `ERR_AUTH_TAG`,
`ERR_AUTH_REPLAY`, `ERR_MSG_TYPE`, `ERR_NODE_ID`; for ENC `ERR_NODE_ID` alone (R121). -/
def Obligations.FirstApplicableErrorIsReported : Prop :=
  ∀ (p : Packet) (s : State),
    ∃ (m : Memory) (code : Byte) (rest : Packet), exec (decode p) s = .next (s.answered m (code :: rest)) ∧
      (NotACommand p → code = 0x06) ∧
      (¬ NotACommand p →
        (∀ id, decode p = .kdf id → code = 0x00) ∧
        (∀ key nonce n, decode p = .ksg key nonce n → code = 0x00) ∧
        (∀ f, decode p = .enc f → (¬ NodeIdValid Config.block f.nodeId → code = 0x05) ∧
          (NodeIdValid Config.block f.nodeId → code = 0x00)) ∧
        (∀ data, decode p = .dec data →
          (data.length < 28 → code = 0x01) ∧
          ∀ f, frameOfData data = some f →
            (¬ TagPasses Config.block data f → code = 0x03) ∧
            (TagPasses Config.block data f → ¬ Fresh s.seqt f.nodeId f.txSeq → code = 0x04) ∧
            (TagPasses Config.block data f → Fresh s.seqt f.nodeId f.txSeq →
              (plaintextOf Config.block f)[0]? ≠ some Config.block.msgType → code = 0x02) ∧
            (TagPasses Config.block data f → Fresh s.seqt f.nodeId f.txSeq →
              (plaintextOf Config.block f)[0]? = some Config.block.msgType →
              (¬ NodeIdValid Config.block f.nodeId → code = 0x05) ∧
              (NodeIdValid Config.block f.nodeId → code = 0x00))))

/-- Which errors leave the state as it was: all but `ERR_MSG_TYPE` and `ERR_NODE_ID` out of DEC, after which exactly the
entry of the frame's node id differs (R122). -/
def Obligations.ErrorsAndState : Prop :=
  ∀ (i : Instr) (s t : State) (code : Byte),
    exec i s = .next t → t.responses = s.responses ++ [[code]] →
    (code ∈ [0x06, 0x01, 0x03, 0x04] → t.seqt = s.seqt) ∧
    (∀ f, i = .enc f → code = 0x05 → t.seqt = s.seqt) ∧
    (∀ data, i = .dec data → code ∈ [0x02, 0x05] →
      ∃ f, frameOfData data = some f ∧ memRead t.seqt f.nodeId = { valid := true, last := f.txSeq } ∧
        memRead t.seqt f.nodeId ≠ memRead s.seqt f.nodeId ∧
        ∀ j : Byte, j ≠ f.nodeId → memRead t.seqt j = memRead s.seqt j)

/-- Verify, then decrypt: SEQT is written only if the tag check has passed; no keystream is generated unless the tag
check and the replay check have passed; no result byte leaves the block unless the status is `OK` (R109, which the spec
marks as derived from R98). -/
def Obligations.VerifyThenDecrypt : Prop :=
  ∀ (c : Params) (data : Packet) (m : Memory),
    ((transact c (.dec data) m).seqt ≠ m → ∃ f, frameOfData data = some f ∧ TagPasses c data f) ∧
    (frameOfData data = none → hashCalls c (.dec data) m = []) ∧
    (∀ f, frameOfData data = some f → ¬ (TagPasses c data f ∧ Fresh m f.nodeId f.txSeq) →
      hashCalls c (.dec data) m = kdfCalls c f.nodeId ++ [((kdf c f.nodeId).mac, data.take 20)]) ∧
    (∀ (code : Byte) (rest : Packet), responsePacket (transact c (.dec data) m) = code :: rest → code ≠ 0x00 →
      rest = [])

/-- Round trip: a frame made by ENC, alone or followed by other bytes, is decoded to exactly the operands of ENC in
every state in which its sequence number is fresh, and is then the last one accepted (R110, which the spec marks as
derived from R95 and R98). -/
def Obligations.RoundTrip : Prop :=
  ∀ (f : SensorFrame) (s : State), NodeIdValid Config.block f.nodeId →
    ∃ F : Packet, F.length = 28 ∧ exec (.enc f) s = .next (s.answered s.seqt (0x00 :: F)) ∧
      ∀ (u : State) (extra : Packet), Fresh u.seqt f.nodeId f.txSeq →
        ∃ m : Memory,
          exec (.dec (F ++ extra)) u =
            .next (u.answered m (0x00 :: f.nodeId :: ((le32 f.txSeq).toList ++
              (f.x.toList ++ f.y.toList ++ f.z.toList ++ f.tempTenths.toList)))) ∧
          memRead m f.nodeId = { valid := true, last := f.txSeq }

/-- Two blocks that agree on `H`, `MK` and `MSG_TYPE` interoperate: what one encodes the other decodes, if the node id
is valid for both and the sequence number is fresh for the receiver (R66, which the spec marks as derived from R110). -/
def Obligations.BlocksInteroperate : Prop :=
  ∀ (sender receiver : Params) (f : SensorFrame) (F : FrameBytes) (m : Memory),
    receiver.hash = sender.hash → receiver.masterKey = sender.masterKey → receiver.msgType = sender.msgType →
    f.nodeId.toNat ≤ receiver.maxNodes → encodeFrame sender f = .ok F → Fresh m f.nodeId f.txSeq →
    decodeFrame receiver F.toList m = (memWrite m f.nodeId { valid := true, last := f.txSeq }, .ok f)

/-- No frame is accepted twice: once a frame has been answered `OK`, `ERR_MSG_TYPE` or `ERR_NODE_ID`, every later frame
of its node id with a sequence number not above its own is rejected, until the next reset, with no state change; the
identical bytes with `ERR_AUTH_REPLAY` (R111, which the spec marks as derived from R103, R104 and R19). -/
def Obligations.NoFrameAcceptedTwice : Prop :=
  ∀ (data₁ data₂ : Packet) (f₁ f₂ : SecureFrame) (s t u : State) (code : Byte) (rest : Packet),
    frameOfData data₁ = some f₁ → frameOfData data₂ = some f₂ →
    f₂.nodeId = f₁.nodeId → f₂.txSeq.toNat ≤ f₁.txSeq.toNat →
    exec (.dec data₁) s = .next t → t.responses = s.responses ++ [code :: rest] → code ∈ [0x00, 0x02, 0x05] →
    CommandRun t u →
    (exec (.dec data₂) u = .next (u.answered u.seqt [0x03]) ∨ exec (.dec data₂) u = .next (u.answered u.seqt [0x04])) ∧
    exec (.dec data₁) u = .next (u.answered u.seqt [0x04])

/-- Tampering: with the tag bytes of an acceptable frame changed and nothing before them, DEC answers `ERR_AUTH_TAG`
with certainty; with bytes before the tag changed it does so unless `H` maps the new key and message to the tag carried;
in both cases no state changes (R112, which the spec marks as derived from R102). -/
def Obligations.TamperedFramesAreRejected : Prop :=
  ∀ (data data' : Packet) (f f' : SecureFrame) (s : State),
    frameOfData data = some f → TagPasses Config.block data f → Fresh s.seqt f.nodeId f.txSeq →
    frameOfData data' = some f' →
    (data'.take 20 = data.take 20 → (data'.drop 20).take 8 ≠ (data.drop 20).take 8 →
      exec (.dec data') s = .next (s.answered s.seqt [0x03])) ∧
    (data'.take 20 ≠ data.take 20 →
      Config.block.hash (kdf Config.block f'.nodeId).mac (data'.take 20) ≠ f'.tag →
      exec (.dec data') s = .next (s.answered s.seqt [0x03]))

/-! SEQT. -/

/-- Every step keeps the invariant: SEQT in canonical form, and sequence number 0 in every entry that is not valid
(R19 (a); the canonical form is the model's choice, log 9). -/
def Obligations.StepKeepsInvariant : Prop :=
  ∀ s t : State, s.Inv → step s = .next t → t.Inv

/-- The reset state satisfies the invariant (R19, R26; the canonical form is the model's choice, log 9). -/
def Obligations.ResetHasInvariant : Prop := State.reset.Inv

/-- The four invariants of SEQT, after reset and after every command: an entry that is not valid holds 0; a valid bit
is cleared by no command; a write to a valid entry stores a greater number; only DEC changes SEQT, and of it at most the
entry of the node id its frame carries (R19, which the spec marks as derived from R17, R18, R103 and R104). -/
def Obligations.SeqtInvariants : Prop :=
  SeqtZeroWhenInvalid State.reset.seqt ∧
  ∀ (i : Instr) (s t : State), exec i s = .next t →
    (SeqtZeroWhenInvalid s.seqt → SeqtZeroWhenInvalid t.seqt) ∧
    (∀ j : Byte, (memRead s.seqt j).valid = true → (memRead t.seqt j).valid = true) ∧
    (∀ j : Byte, (memRead s.seqt j).valid = true → memRead t.seqt j ≠ memRead s.seqt j →
      (memRead s.seqt j).last.toNat < (memRead t.seqt j).last.toNat) ∧
    (∀ (data : Packet) (f : SecureFrame), i = .dec data → frameOfData data = some f →
      ∀ j : Byte, j ≠ f.nodeId → memRead t.seqt j = memRead s.seqt j) ∧
    (∀ data : Packet, i = .dec data → frameOfData data = none → t.seqt = s.seqt) ∧
    ((∀ data, i ≠ .dec data) → t.seqt = s.seqt)

/-- Entries are independent: a DEC that carries node id `i` reads and writes entry `i` only, and its outcome does not
depend on any other; the other commands read and write none (R24). -/
def Obligations.EntriesAreIndependent : Prop :=
  (∀ (data : Packet) (f : SecureFrame) (s₁ s₂ : State),
    frameOfData data = some f → memRead s₁.seqt f.nodeId = memRead s₂.seqt f.nodeId →
    ∃ (m₁ m₂ : Memory) (r : Packet),
      exec (.dec data) s₁ = .next (s₁.answered m₁ r) ∧ exec (.dec data) s₂ = .next (s₂.answered m₂ r) ∧
      memRead m₁ f.nodeId = memRead m₂ f.nodeId ∧
      ∀ j : Byte, j ≠ f.nodeId → memRead m₁ j = memRead s₁.seqt j ∧ memRead m₂ j = memRead s₂.seqt j) ∧
  (∀ i : Instr, (∀ data, i ≠ .dec data) → ∃ r : Packet, ∀ s : State, exec i s = .next (s.answered s.seqt r))

/-- Exhaustion: once 0xFFFFFFFF has been accepted for a node id, no further frame of it is accepted until reset, one
that wraps to 0 included (R139, which the spec marks as derived from R103). -/
def Obligations.SequenceSpaceExhausted : Prop :=
  ∀ (data : Packet) (f : SecureFrame) (s u : State),
    frameOfData data = some f → memRead s.seqt f.nodeId = { valid := true, last := 0xFFFFFFFF } → CommandRun s u →
    ∃ code : Byte, exec (.dec data) u = .next (u.answered u.seqt [code]) ∧ (code = 0x03 ∨ code = 0x04)

/-- Reset re-opens the replay window: after it every authentic frame with the right message type and a valid node id is
answered `OK` again, whatever its sequence number (R136, which the spec marks as derived from R132
and R103). -/
def Obligations.ResetReopensTheReplayWindow : Prop :=
  ∀ (s : State) (rest : List HostEvent), s.inputs = .reset :: rest →
    ∃ t, step s = .next t ∧
      ∀ (data : Packet) (f : SecureFrame), frameOfData data = some f → TagPasses Config.block data f →
        (plaintextOf Config.block f)[0]? = some Config.block.msgType → NodeIdValid Config.block f.nodeId →
        ∃ (m : Memory) (r : Packet), exec (.dec data) t = .next (t.answered m (0x00 :: r))

/-! The hash. -/

/-- What a command answers and writes depends on `H` only at the invocations listed for it: two blocks that agree there
and in `MK`, `MAX_NODES` and `MSG_TYPE` do the same (R67, R69). -/
def Obligations.HashCallsDetermineTheResult : Prop :=
  ∀ (c c' : Params) (i : Instr) (m : Memory),
    c'.masterKey = c.masterKey → c'.maxNodesPred = c.maxNodesPred → c'.msgType = c.msgType →
    (∀ (k : Key) (msg : Packet), (k, msg) ∈ hashCalls c i m → c'.hash k msg = c.hash k msg) →
    transact c' i m = transact c i m

/-- The messages a command hashes have the four shapes of R69, and their number is 4 for KDF, `ceil(n / 8)` for KSG, at
most 2^29, 7 for an ENC that makes a frame, and 7 or 5 for a DEC that does or does not get as far as decryption (R69,
R146). -/
def Obligations.HashMessageShapes : Prop :=
  ∀ (c : Params) (i : Instr) (m : Memory),
    (∀ (k : Key) (msg : Packet), (k, msg) ∈ hashCalls c i m →
      (k = c.masterKey ∧ ∃ (p : Purpose) (id : Byte), msg = label p id ∨ msg = extendedLabel p id) ∨
      (∃ nonce b : U32, msg = blockMessage nonce b) ∨
      (∃ id : Byte, k = (kdf c id).mac ∧ msg.length = 20)) ∧
    (match i with
      | .kdf _ => (hashCalls c i m).length = 4
      | .ksg _ _ n => (hashCalls c i m).length = (n.toNat + 7) / 8 ∧ (hashCalls c i m).length ≤ 2 ^ 29
      | .enc f => NodeIdValid c f.nodeId → (hashCalls c i m).length = 7
      | .dec data => ∀ f, frameOfData data = some f →
          (TagPasses c data f ∧ Fresh m f.nodeId f.txSeq → (hashCalls c i m).length = 7) ∧
          (¬ (TagPasses c data f ∧ Fresh m f.nodeId f.txSeq) → (hashCalls c i m).length = 5)
      | .reserved _ => hashCalls c i m = [])

/-! Text. -/

/-- The assembler makes only well-formed commands, never RESERVED, and the packet it makes decodes to the command it read
(R63). -/
def Obligations.AssemblerMakesCommands : Prop :=
  ∀ (line : List Char) (i : Instr), readLine line = .command i →
    i.wellFormed = true ∧ (∀ p, i ≠ .reserved p) ∧ ∃ p, assembleLine line = some p ∧ decode p = i

/-- The assembler reads a number exactly or refuses it, and never truncates one (R63). An unsigned field takes every
decimal and every hexadecimal number that fits it, and nothing else. A signed field of 32 or 16 bits takes every decimal
number from -2^31 to 2^31 - 1 or from -2^15 to 2^15 - 1, every hexadecimal pattern of at most 8 or 4 digits, and nothing
else. How a number may be written is partly the model's choice (DESIGN CHOICE, log 18), where R63 leaves it open: that
nothing but these notations is taken, that a plus sign is refused, that a minus sign stands directly before the digits,
that hexadecimal begins with a lower-case `0x` and has digits of either case. -/
def Obligations.AssemblerNeverTruncates : Prop :=
  (∀ (bits : Nat) (s : List Char) (n : Nat), readNumber decimalDigit 10 s = some n →
    (n < 2 ^ bits → ∃ v, readUnsigned bits s = some v ∧ v.toNat = n) ∧
    (2 ^ bits ≤ n → readUnsigned bits s = none)) ∧
  (∀ (bits : Nat) (digits : List Char) (n : Nat), readNumber hexDigit 16 digits = some n →
    (n < 2 ^ bits → ∃ v, readUnsigned bits ('0' :: 'x' :: digits) = some v ∧ v.toNat = n) ∧
    (2 ^ bits ≤ n → readUnsigned bits ('0' :: 'x' :: digits) = none)) ∧
  (∀ (bits : Nat) (s : List Char) (v : BitVec bits), readUnsigned bits s = some v →
    readNumber decimalDigit 10 s = some v.toNat ∨
      ∃ digits, s = '0' :: 'x' :: digits ∧ readNumber hexDigit 16 digits = some v.toNat) ∧
  ∀ bits : Nat, bits = 32 ∨ bits = 16 →
    (∀ (s : List Char) (n : Nat), readNumber decimalDigit 10 s = some n →
      (n < 2 ^ (bits - 1) → ∃ v, readSigned bits s = some v ∧ v.toInt = (n : Int)) ∧
      (2 ^ (bits - 1) ≤ n → readSigned bits s = none)) ∧
    (∀ (digits : List Char) (n : Nat), readNumber decimalDigit 10 digits = some n →
      (n ≤ 2 ^ (bits - 1) → ∃ v, readSigned bits ('-' :: digits) = some v ∧ v.toInt = -(n : Int)) ∧
      (2 ^ (bits - 1) < n → readSigned bits ('-' :: digits) = none)) ∧
    (∀ (digits : List Char) (n : Nat), readNumber hexDigit 16 digits = some n →
      (digits.length ≤ bits / 4 → ∃ v, readSigned bits ('0' :: 'x' :: digits) = some v ∧ v.toNat = n) ∧
      (bits / 4 < digits.length → readSigned bits ('0' :: 'x' :: digits) = none)) ∧
    (∀ (s : List Char) (v : BitVec bits), readSigned bits s = some v →
      (∃ n : Nat, readNumber decimalDigit 10 s = some n ∧ v.toInt = (n : Int)) ∨
      (∃ (digits : List Char) (n : Nat), s = '-' :: digits ∧ readNumber decimalDigit 10 digits = some n ∧
        v.toInt = -(n : Int)) ∨
      (∃ (digits : List Char) (n : Nat), s = '0' :: 'x' :: digits ∧ readNumber hexDigit 16 digits = some n ∧
        v.toNat = n))
end

