-- ==== Sys2Proof/Laws/Bytes.lean ====
section
/-!
SUPPORT. The small lemmas of byte strings: what the list of bytes of each operation of Machine/Operands.lean and
Machine/Formats.lean is, and how long it is.
-/

namespace Sys2Proof.Laws

open Machine

@[simp] theorem bytesOfList_toList {n : Nat} (s : Packet) (h : s.length = n) : (bytesOfList s h).toList = s := by
  simp [bytesOfList]

/-- Two byte strings with the same bytes are the same. -/
theorem bytes_ext {n : Nat} {a b : Bytes n} (h : a.toList = b.toList) : a = b :=
  Vector.toList_inj.mp h

@[simp] theorem bytesOfList_of_toList {n : Nat} (v : Bytes n) (h : v.toList.length = n) : bytesOfList v.toList h = v :=
  bytes_ext (bytesOfList_toList _ _)

@[simp] theorem slice_toList (s : Packet) (off n : Nat) (h : off + n ≤ s.length) :
    (slice s off n h).toList = (s.drop off).take n := by
  simp [slice]

@[simp] theorem joinBytes_toList {m n : Nat} (a : Bytes m) (b : Bytes n) :
    (joinBytes a b).toList = a.toList ++ b.toList := by
  simp [joinBytes]

@[simp] theorem xorBytes_toList {n : Nat} (a b : Bytes n) :
    (xorBytes a b).toList = List.zipWith (· ^^^ ·) a.toList b.toList := by
  simp [xorBytes]

@[simp] theorem byteAt_cons_zero (a : Byte) (s : Packet) (h : 0 < (a :: s).length) : byteAt (a :: s) 0 h = a := rfl

@[simp] theorem byteAt_cons_succ (a : Byte) (s : Packet) (i : Nat) (h : i + 1 < (a :: s).length) :
    byteAt (a :: s) (i + 1) h = byteAt s i (by simpa using h) := rfl

/-- Dropping a whole fixed-length byte string leaves nothing. -/
@[simp] theorem drop_toList_of_le {n k : Nat} (v : Bytes n) (h : n ≤ k) : v.toList.drop k = [] :=
  List.drop_eq_nil_of_le (by simpa using h)

/-- Taking at least a whole fixed-length byte string takes it all. -/
@[simp] theorem take_toList_of_le {n k : Nat} (v : Bytes n) (h : n ≤ k) : v.toList.take k = v.toList :=
  List.take_of_length_le (by simpa using h)

/-- A fixed-length byte string as the list of its bytes, for case analysis. -/
theorem toList_four (v : Bytes 4) : v.toList = [v[0], v[1], v[2], v[3]] := by
  apply List.ext_getElem (by simp)
  intro i h _
  have : i < 4 := by simpa using h
  interval_cases i <;> simp

theorem toList_two (v : Bytes 2) : v.toList = [v[0], v[1]] := by
  apply List.ext_getElem (by simp)
  intro i h _
  have : i < 2 := by simpa using h
  interval_cases i <;> simp

@[simp] theorem header_length (nodeId : Byte) (txSeq : U32) : (header nodeId txSeq).length = 5 := by
  simp [header]

@[simp] theorem taggedMessage_length (nodeId : Byte) (txSeq : U32) (ct : Payload) :
    (taggedMessage nodeId txSeq ct).length = 20 := by
  simp [taggedMessage]

@[simp] theorem frameBytes_toList (f : SecureFrame) :
    (frameBytes f).toList = taggedMessage f.nodeId f.txSeq f.ciphertext ++ f.tag.toList := by
  simp [frameBytes]

@[simp] theorem sensorFrameBytes_length (f : SensorFrame) : (sensorFrameBytes f).length = 19 := by
  simp [sensorFrameBytes]

@[simp] theorem label_length (p : Purpose) (nodeId : Byte) : (label p nodeId).length = 6 := by
  cases p <;> rfl

@[simp] theorem extendedLabel_length (p : Purpose) (nodeId : Byte) : (extendedLabel p nodeId).length = 7 := by
  cases p <;> rfl

@[simp] theorem blockMessage_length (nonce b : U32) : (blockMessage nonce b).length = 9 := by
  simp [blockMessage]

/-- Received data holds a frame exactly when it has at least 28 bytes. -/
theorem frameOfData_isSome (data : Packet) : (frameOfData data).isSome = decide (28 ≤ data.length) := by
  unfold frameOfData
  split <;> simp_all

/-- Received data too short for a frame holds none. -/
theorem frameOfData_short {data : Packet} (h : data.length < 28) : frameOfData data = none := by
  simp only [frameOfData, dif_neg (Nat.not_le.mpr h)]

end Sys2Proof.Laws
end

