-- ==== Sys2Proof/Laws/Memory.lean ====
section
/-!
SUPPORT. SEQT as a canonical list: every operation keeps the form, a read gives what was last written, and equal
contents are equal lists.
-/

namespace Sys2Proof.Laws

open Machine

/-- The canonical form of a list with a head, unfolded once. -/
theorem wf_cons {i : Nat} {e : SeqEntry} {rest : Memory} :
    Memory.wf ((i, e) :: rest) = true ↔
      i < 256 ∧ e ≠ SeqEntry.atReset ∧ (∀ c ∈ rest, i < c.1) ∧ Memory.wf rest = true := by
  simp [Memory.wf, and_assoc]

/-- The reset contents are in canonical form. -/
theorem wf_reset : Memory.wf State.reset.seqt = true := rfl

/-- An index below every listed one reads as unlisted. -/
theorem lookupEntry_of_lt {rest : Memory} {i : Nat} (h : ∀ c ∈ rest, i < c.1) :
    lookupEntry rest i = SeqEntry.atReset := by
  induction rest with
  | nil => rfl
  | cons c rest ih =>
    have hc : i < c.1 := h c (by simp)
    simp only [lookupEntry, if_neg (Nat.ne_of_lt hc)]
    exact ih (fun d hd => h d (by simp [hd]))

/-- The indices of a list after a store are those before it and the one stored to. -/
theorem mem_storeEntry {m : Memory} {i : Nat} {e : SeqEntry} {c : Nat × SeqEntry} (h : c ∈ storeEntry m i e) :
    c.1 = i ∨ ∃ d ∈ m, d.1 = c.1 := by
  induction m with
  | nil =>
    simp only [storeEntry, consEntry] at h
    split at h <;> simp_all
  | cons d m ih =>
    obtain ⟨j, f⟩ := d
    simp only [storeEntry, consEntry] at h
    split at h
    · split at h
      · exact .inr ⟨c, h, rfl⟩
      · obtain rfl | h := List.mem_cons.mp h
        · exact .inl rfl
        · exact .inr ⟨c, h, rfl⟩
    · split at h
      · split at h
        · exact .inr ⟨c, by simp [h], rfl⟩
        · obtain rfl | h := List.mem_cons.mp h
          · exact .inl rfl
          · exact .inr ⟨c, by simp [h], rfl⟩
      · obtain rfl | h := List.mem_cons.mp h
        · exact .inr ⟨_, by simp, rfl⟩
        · obtain h | ⟨d, hd, h⟩ := ih h
          · exact .inl h
          · exact .inr ⟨d, by simp [hd], h⟩

/-- Putting an entry before higher indices keeps the canonical form. -/
theorem wf_consEntry {i : Nat} {e : SeqEntry} {rest : Memory} (hi : i < 256) (h : ∀ c ∈ rest, i < c.1)
    (hr : Memory.wf rest = true) : Memory.wf (consEntry i e rest) = true := by
  unfold consEntry
  split
  · exact hr
  · exact wf_cons.mpr ⟨hi, ‹_›, h, hr⟩

/-- A store keeps the canonical form. -/
theorem wf_storeEntry {m : Memory} {i : Nat} {e : SeqEntry} (hi : i < 256) (hm : Memory.wf m = true) :
    Memory.wf (storeEntry m i e) = true := by
  induction m with
  | nil => exact wf_consEntry hi (by simp) rfl
  | cons c m ih =>
    obtain ⟨j, f⟩ := c
    obtain ⟨hj, hf, hlt, hm'⟩ := wf_cons.mp hm
    simp only [storeEntry]
    split
    · refine wf_consEntry hi (fun c hc => ?_) hm
      obtain rfl | hc := List.mem_cons.mp hc
      · assumption
      · exact Nat.lt_trans ‹_› (hlt c hc)
    · split
      · subst_vars
        exact wf_consEntry hi hlt hm'
      · refine wf_cons.mpr ⟨hj, hf, fun c hc => ?_, ih hm'⟩
        obtain h | ⟨d, hd, h⟩ := mem_storeEntry hc
        · omega
        · exact h ▸ hlt d hd

/-- `MemWrite` keeps the canonical form, whatever it writes. -/
theorem wf_memWrite {m : Memory} (i : Byte) (e : SeqEntry) (hm : Memory.wf m = true) :
    Memory.wf (memWrite m i e) = true :=
  wf_storeEntry i.isLt hm

/-- What `lookupEntry` gives after a store of an entry that is not the reset entry: no canonical form is needed. -/
theorem lookupEntry_storeEntry {m : Memory} {i j : Nat} {e : SeqEntry} (he : e ≠ SeqEntry.atReset) :
    lookupEntry (storeEntry m i e) j = if j = i then e else lookupEntry m j := by
  induction m with
  | nil => simp [storeEntry, consEntry, he, lookupEntry]
  | cons c m ih =>
    obtain ⟨k, f⟩ := c
    simp only [storeEntry, consEntry, if_neg he]
    split
    · simp [lookupEntry]
    · split
      · subst_vars
        simp only [lookupEntry]
        split <;> rfl
      · simp only [lookupEntry, ih]
        split
        · rw [if_neg (by omega)]
        · rfl

/-- Everything `MemWrite` of a valid entry does to reads: the entry written reads back, every other entry reads as
before. -/
theorem memRead_memWrite_valid (m : Memory) (i j : Byte) (last : U32) :
    memRead (memWrite m i { valid := true, last }) j = if j = i then { valid := true, last } else memRead m j := by
  rw [memRead, memWrite, lookupEntry_storeEntry (by simp [SeqEntry.atReset])]
  simp only [BitVec.toNat_inj, memRead]

/-- What `lookupEntry` gives after any store to a list in canonical form. -/
theorem lookupEntry_storeEntry_of_wf {m : Memory} {i j : Nat} {e : SeqEntry} (hm : Memory.wf m = true) :
    lookupEntry (storeEntry m i e) j = if j = i then e else lookupEntry m j := by
  by_cases he : e = SeqEntry.atReset
  · subst he
    induction m with
    | nil => simp [storeEntry, consEntry, lookupEntry]
    | cons c m ih =>
      obtain ⟨k, f⟩ := c
      obtain ⟨-, -, hlt, hm'⟩ := wf_cons.mp hm
      simp only [storeEntry, consEntry, if_true]
      split
      · split
        · subst_vars
          refine lookupEntry_of_lt (fun c hc => ?_)
          obtain rfl | hc := List.mem_cons.mp hc
          · assumption
          · exact Nat.lt_trans ‹_› (hlt c hc)
        · rfl
      · split
        · subst_vars
          simp only [lookupEntry]
          split
          · subst_vars; exact lookupEntry_of_lt hlt
          · rfl
        · simp only [lookupEntry, ih hm']
          split
          · rw [if_neg (by omega)]
          · rfl
  · exact lookupEntry_storeEntry he

/-- Everything `MemWrite` does to reads of a table in canonical form. -/
theorem memRead_memWrite {m : Memory} (i j : Byte) (e : SeqEntry) (hm : Memory.wf m = true) :
    memRead (memWrite m i e) j = if j = i then e else memRead m j := by
  rw [memRead, memWrite, lookupEntry_storeEntry_of_wf hm]
  simp only [BitVec.toNat_inj, memRead]

/-- A listed entry of a table in canonical form reads as listed. -/
theorem lookupEntry_of_mem {m : Memory} {i : Nat} {e : SeqEntry} (hm : Memory.wf m = true) (h : (i, e) ∈ m) :
    lookupEntry m i = e := by
  induction m with
  | nil => simp at h
  | cons c m ih =>
    obtain ⟨k, f⟩ := c
    obtain ⟨-, -, hlt, hm'⟩ := wf_cons.mp hm
    simp only [lookupEntry]
    obtain h | h := List.mem_cons.mp h
    · simp_all
    · rw [if_neg (Nat.ne_of_gt (hlt _ h)), ih hm' h]

/-- In a table in canonical form, what does not read as unlisted is listed. -/
theorem mem_of_lookupEntry {m : Memory} {i : Nat} (h : lookupEntry m i ≠ SeqEntry.atReset) :
    (i, lookupEntry m i) ∈ m := by
  induction m with
  | nil => simp [lookupEntry] at h
  | cons c m ih =>
    obtain ⟨k, f⟩ := c
    simp only [lookupEntry] at h ⊢
    split
    · simp_all
    · rename_i hne
      rw [if_neg hne] at h
      exact List.mem_cons_of_mem _ (ih h)

end Sys2Proof.Laws
end

