-- ==== Sys2Proof/Laws/State.lean ====
section
/-!
SUPPORT. One lemma per field per update of State, true by rfl, so that no later proof unfolds a record update.
-/

namespace Sys2Proof.Laws

open Machine

variable (s : State) (p : Packet) (e : ErrorStatus)

@[simp] theorem respond_seqt : (respond p s).seqt = s.seqt := rfl
@[simp] theorem respond_inputs : (respond p s).inputs = s.inputs := rfl
@[simp] theorem respond_responses : (respond p s).responses = s.responses ++ [p] := rfl

@[simp] theorem raise_seqt : (raise e s).seqt = s.seqt := rfl
@[simp] theorem raise_inputs : (raise e s).inputs = s.inputs := rfl
@[simp] theorem raise_responses : (raise e s).responses = s.responses ++ [[errorCode e]] := rfl

@[simp] theorem returnOk_seqt : (returnOk p s).seqt = s.seqt := rfl
@[simp] theorem returnOk_inputs : (returnOk p s).inputs = s.inputs := rfl
@[simp] theorem returnOk_responses : (returnOk p s).responses = s.responses ++ [okCode :: p] := rfl

@[simp] theorem hostReset_seqt : (hostReset s).seqt = [] := rfl
@[simp] theorem hostReset_inputs : (hostReset s).inputs = s.inputs := rfl
@[simp] theorem hostReset_responses : (hostReset s).responses = s.responses := rfl

@[simp] theorem presentPacket_seqt : (presentPacket p s).seqt = s.seqt := rfl
@[simp] theorem presentPacket_inputs : (presentPacket p s).inputs = .command p :: s.inputs := rfl
@[simp] theorem presentPacket_responses : (presentPacket p s).responses = s.responses := rfl

@[simp] theorem reset_seqt : State.reset.seqt = [] := rfl
@[simp] theorem reset_inputs : State.reset.inputs = [] := rfl
@[simp] theorem reset_responses : State.reset.responses = [] := rfl

variable (r : Reply)

@[simp] theorem conclude_seqt : (conclude r s).seqt = r.seqt := by
  unfold conclude; split <;> rfl

@[simp] theorem conclude_inputs : (conclude r s).inputs = s.inputs := by
  unfold conclude; split <;> rfl

@[simp] theorem conclude_responses : (conclude r s).responses = s.responses ++ [responsePacket r] := by
  unfold conclude responsePacket; split <;> rfl

/-- The end of a command, whole: SEQT as the command left it, one response more, nothing else. -/
theorem conclude_eq :
    conclude r s = { seqt := r.seqt, inputs := s.inputs, responses := s.responses ++ [responsePacket r] } := by
  unfold conclude responsePacket; split <;> rfl

end Sys2Proof.Laws
end

