-- ==== Sys2Proof/Laws/Commands.lean ====
section
/-!
SUPPORT. What a command and a step can do, each said once: proofs about the machine cite these and unfold nothing below
them.
-/

namespace Sys2Proof.Laws

open Machine

/-- Every meaning is its transaction with the block's own parameters, concluded. -/
theorem exec_eq_transact (i : Instr) (s : State) :
    exec i s = .next (conclude (transact Config.block i s.seqt) s) := by
  cases i <;> rfl

variable (s : State) (m : Memory) (p : Packet)

@[simp] theorem answered_seqt : (s.answered m p).seqt = m := rfl
@[simp] theorem answered_inputs : (s.answered m p).inputs = s.inputs := rfl
@[simp] theorem answered_responses : (s.answered m p).responses = s.responses ++ [p] := rfl

/-- Every meaning, whole: SEQT as the transaction leaves it, one response more, nothing else. -/
theorem exec_eq (i : Instr) (s : State) :
    exec i s = .next (s.answered (transact Config.block i s.seqt).seqt
      (responsePacket (transact Config.block i s.seqt))) := by
  rw [exec_eq_transact, conclude_eq, State.answered]

/-- Only DEC can leave another SEQT than it found. -/
theorem transact_seqt_of_not_dec (c : Params) {i : Instr} (seqt : Memory) (h : ∀ data, i ≠ .dec data) :
    (transact c i seqt).seqt = seqt := by
  cases i with
  | dec data => exact absurd rfl (h data)
  | _ => rfl

/-- Everything a step can do. -/
theorem step_cases {s t : State} (h : step s = .next t) :
    (s.inputs = [] ∧ t = s) ∨
    (∃ rest, s.inputs = .reset :: rest ∧ t = { seqt := [], inputs := rest, responses := s.responses }) ∨
    (∃ p rest, s.inputs = .command p :: rest ∧ exec (decode p) { s with inputs := rest } = .next t) := by
  match hi : s.inputs with
  | [] =>
    simp only [step, nextEvent, hi] at h
    cases h
    exact .inl ⟨rfl, rfl⟩
  | .reset :: rest =>
    simp only [step, nextEvent, hi, hostReset] at h
    cases h
    exact .inr (.inl ⟨rest, rfl, rfl⟩)
  | .command p :: rest =>
    simp only [step, nextEvent, hi] at h
    exact .inr (.inr ⟨p, rest, rfl, h⟩)

/-- Everything `DECODE` can do: one of its five ways to end (R98). -/
theorem decodeFrame_cases (c : Params) (data : Packet) (seqt : Memory) :
    (frameOfData data = none ∧ decodeFrame c data seqt = (seqt, .error .short)) ∨
    (∃ f, frameOfData data = some f ∧
      ((expectedTag c data f ≠ f.tag ∧ decodeFrame c data seqt = (seqt, .error .authTag)) ∨
       (expectedTag c data f = f.tag ∧ isReplay (memRead seqt f.nodeId) f.txSeq = true ∧
          decodeFrame c data seqt = (seqt, .error .authReplay)) ∨
       (expectedTag c data f = f.tag ∧ isReplay (memRead seqt f.nodeId) f.txSeq = false ∧
          decodeFrame c data seqt = (acceptSeq seqt f, validateFrame c f)))) := by
  unfold decodeFrame
  split
  · exact .inl ⟨‹_›, rfl⟩
  · rename_i f hf
    refine .inr ⟨f, hf, ?_⟩
    by_cases ht : expectedTag c data f = f.tag
    · by_cases hr : isReplay (memRead seqt f.nodeId) f.txSeq = true
      · simp [ht, hr, tagsEqual]
      · simp [ht, hr, tagsEqual]
    · simp [ht, tagsEqual]

/-- Everything the validation of an accepted frame can do (R98 steps 11 to 13). -/
theorem validateFrame_cases (c : Params) (f : SecureFrame) :
    ((decryptFrame c f).msgType ≠ c.msgType ∧ validateFrame c f = .error .msgType) ∨
    ((decryptFrame c f).msgType = c.msgType ∧ nodeIdInvalid c f.nodeId = true ∧ validateFrame c f = .error .nodeId) ∨
    ((decryptFrame c f).msgType = c.msgType ∧ nodeIdInvalid c f.nodeId = false ∧
      validateFrame c f = .ok { nodeId := f.nodeId, txSeq := f.txSeq, x := (decryptFrame c f).x,
                                y := (decryptFrame c f).y, z := (decryptFrame c f).z,
                                tempTenths := (decryptFrame c f).tempTenths }) := by
  unfold validateFrame
  by_cases hm : (decryptFrame c f).msgType = c.msgType
  · by_cases hn : nodeIdInvalid c f.nodeId = true <;> simp [hm, hn]
  · simp [hm]

/-- The tag check of R98 step 5 passes exactly when the recomputed tag is the received one (R102). -/
theorem tagPasses_iff (c : Params) (data : Packet) (f : SecureFrame) :
    TagPasses c data f ↔ expectedTag c data f = f.tag := Iff.rfl

/-- The replay test passes exactly for a fresh sequence number (R103). -/
theorem isReplay_eq_false_iff (m : Memory) (nodeId : Byte) (txSeq : U32) :
    isReplay (memRead m nodeId) txSeq = false ↔ Fresh m nodeId txSeq := by
  simp only [isReplay, Fresh, Bool.and_eq_false_iff, decide_eq_false_iff_not]
  cases (memRead m nodeId).valid <;> simp

/-- The range test fails exactly for a valid node id (R15). -/
theorem nodeIdInvalid_eq_false_iff (c : Params) (nodeId : Byte) :
    nodeIdInvalid c nodeId = false ↔ NodeIdValid c nodeId := by
  simp only [nodeIdInvalid, NodeIdValid, Bool.or_eq_false_iff, decide_eq_false_iff_not]
  omega

/-- DEC of a frame whose tag does not verify, whole (R102). -/
theorem transact_dec_forged {c : Params} {data : Packet} {f : SecureFrame} {m : Memory}
    (hf : frameOfData data = some f) (ht : ¬ TagPasses c data f) :
    transact c (.dec data) m = { seqt := m, result := .error .authTag } := by
  have : tagsEqual (expectedTag c data f) f.tag = false := by simpa [tagsEqual, tagPasses_iff] using ht
  simp [transact, decCommand, decodeFrame, hf, this, Except.map]

/-- DEC of an authentic frame that is not fresh, whole (R103). -/
theorem transact_dec_replayed {c : Params} {data : Packet} {f : SecureFrame} {m : Memory}
    (hf : frameOfData data = some f) (ht : TagPasses c data f) (hr : ¬ Fresh m f.nodeId f.txSeq) :
    transact c (.dec data) m = { seqt := m, result := .error .authReplay } := by
  have h : tagsEqual (expectedTag c data f) f.tag = true := by simpa [tagsEqual, tagPasses_iff] using ht
  rw [← isReplay_eq_false_iff, Bool.not_eq_false] at hr
  simp [transact, decCommand, decodeFrame, hf, h, hr, Except.map]

/-- DEC of an authentic, fresh frame, whole: the table write, and what validation gives (R104 to R108). -/
theorem transact_dec_accepted {c : Params} {data : Packet} {f : SecureFrame} {m : Memory}
    (hf : frameOfData data = some f) (ht : TagPasses c data f) (hr : Fresh m f.nodeId f.txSeq) :
    transact c (.dec data) m =
      { seqt := acceptSeq m f, result := (validateFrame c f).map sensorFrameBytes } := by
  have h : tagsEqual (expectedTag c data f) f.tag = true := by simpa [tagsEqual, tagPasses_iff] using ht
  rw [← isReplay_eq_false_iff] at hr
  simp [transact, decCommand, decodeFrame, hf, h, hr]

/-- `MAX_NODES` is in 1..255 (R15). -/
theorem maxNodes_range (c : Params) : 1 ≤ c.maxNodes ∧ c.maxNodes ≤ 255 := by
  unfold Params.maxNodes
  omega

end Sys2Proof.Laws
end

