-- ==== Sys2Proof/Laws/PerInstr.lean ====
section
/-!
SUPPORT. Statements about every constructor of `Instr`, one lemma each.
-/

namespace Sys2Proof.Laws.EncodeFormat

open Machine

/-- The packet of a well-formed command has the length its opcode requires; the packet of a well-formed RESERVED is
malformed (30_encoding.md R48 to R51, R59, R60). -/
def Statement (i : Instr) : Prop :=
  i.wellFormed = true →
    match i with
    | .reserved _ => (malformedCause (encode i)).isSome = true
    | _ => malformedCause (encode i) = none

theorem kdf (nodeId : Byte) : Statement (.kdf nodeId) := fun _ => rfl

theorem ksg (key : Key) (nonce n : U32) : Statement (.ksg key nonce n) := by
  intro _
  simp [malformedCause, formatLength, encode, opKdf, opKsg]

theorem enc (frame : SensorFrame) : Statement (.enc frame) := by
  intro _
  simp [malformedCause, formatLength, encode, opKdf, opKsg, opEnc]

theorem dec (data : Packet) : Statement (.dec data) := by
  intro h
  have hl : data.length < 256 := by simpa [Instr.wellFormed, Nat.lt_succ_iff] using h
  have he : formatLength (encode (.dec data)) = some (2 + data.length) := by
    simp [formatLength, encode, opKdf, opKsg, opEnc, opDec, Nat.mod_eq_of_lt hl]
  have hlen : (encode (.dec data)).length = 2 + data.length := by simp [encode]; omega
  simp only [malformedCause, he, hlen, if_pos]

theorem reserved (packet : Packet) : Statement (.reserved packet) := fun h => h

end Sys2Proof.Laws.EncodeFormat
end

