-- ==== Sys2Proof/Tests/Slice0.lean ====
section
/-!
SUPPORT. Tests: ill-formed terms the checks refuse, packets written out bit by bit, vectors of spec/95_test_vectors.md,
and for every obligation with hypotheses a witness that meets them.
-/

namespace Sys2Proof.Tests

open Machine Laws

/-! WellFormed. -/

/-- The `len` byte of DEC counts at most 255 bytes (R51). -/
theorem test_wf_refuses_dec_of_256_bytes : (Instr.dec (List.replicate 256 0x00)).wellFormed = false := by decide +kernel

theorem test_wf_admits_dec_of_255_bytes : (Instr.dec (List.replicate 255 0x00)).wellFormed = true := by decide +kernel

/-- RESERVED carries no packet that is a command (R59, R60). -/
theorem test_wf_refuses_reserved_kdf : (Instr.reserved [0x01, 0x00]).wellFormed = false := by decide

theorem test_wf_refuses_reserved_dec : (Instr.reserved [0x04, 0x01, 0x00]).wellFormed = false := by decide

/-- Each cause of R59 and R60. -/
theorem test_wf_admits_reserved :
    (Instr.reserved []).wellFormed = true ∧ (Instr.reserved [0x05, 0x01]).wellFormed = true ∧
    (Instr.reserved [0x04]).wellFormed = true := by decide

/-! Decoding: the bits of R48 to R51 and R59, most significant bit first in each byte. -/

theorem test_decode_kdf : decode [0b00000001, 0b10000001] = .kdf 0x81 := by decide

/-- Every operand byte is different, so that none can be read from a neighbour's place. -/
theorem test_decode_ksg :
    decode [0b00000010,
      0b11110000, 0b11110001, 0b11110010, 0b11110011, 0b11110100, 0b11110101, 0b11110110, 0b11110111,
      0b11111000, 0b11111001, 0b11111010, 0b11111011, 0b11111100, 0b11111101, 0b11111110, 0b11111111,
      0b00010001, 0b00100010, 0b00110011, 0b01000100, 0b01010101, 0b01100110, 0b01110111, 0b10001000] =
    .ksg #v[0xF0, 0xF1, 0xF2, 0xF3, 0xF4, 0xF5, 0xF6, 0xF7, 0xF8, 0xF9, 0xFA, 0xFB, 0xFC, 0xFD, 0xFE, 0xFF]
      0x44332211 0x88776655 := by decide

theorem test_decode_enc :
    decode [0b00000011, 0b00000111, 0b00000001, 0b00000010, 0b00000011, 0b00000100,
      0b00010001, 0b00010010, 0b00010011, 0b00010100, 0b00100001, 0b00100010, 0b00100011, 0b00100100,
      0b00110001, 0b00110010, 0b00110011, 0b00110100, 0b01000001, 0b01000010] =
    .enc { nodeId := 0x07, txSeq := 0x04030201, x := #v[0x11, 0x12, 0x13, 0x14], y := #v[0x21, 0x22, 0x23, 0x24],
           z := #v[0x31, 0x32, 0x33, 0x34], tempTenths := #v[0x41, 0x42] } := by decide

theorem test_decode_dec :
    decode [0b00000100, 0b00000011, 0b10101010, 0b00000000, 0b01010101] = .dec [0xAA, 0x00, 0x55] := by decide

theorem test_decode_dec_empty : decode [0b00000100, 0b00000000] = .dec [] := by decide

theorem test_decode_reserved_opcode : decode [0b00000101, 0b00000001] = .reserved [0x05, 0x01] := by decide

theorem test_decode_reserved_length :
    decode [0b00000100, 0b00000010, 0b10101010] = .reserved [0x04, 0x02, 0xAA] := by decide

/-- The opcode table's numbering: bits 7..0 are byte 0, bits 15..8 byte 1; bytes the table gives no bits are 0. -/
theorem test_table_word_kdf : decodeTableWord 16 0xA501 = some (.kdf 0xA5) := by decide

theorem test_table_word_enc_of_opcode_alone :
    decodeTableWord 8 0x03 =
      some (.enc { nodeId := 0, txSeq := 0, x := #v[0, 0, 0, 0], y := #v[0, 0, 0, 0], z := #v[0, 0, 0, 0],
                   tempTenths := #v[0, 0] }) := by decide

theorem test_table_word_reserved : decodeTableWord 8 0x05 = some (.reserved [0x05]) := by decide

theorem test_fetch_word_runs_first :
    step (State.reset.withFetchWord 8 0x05) = .next (State.reset.answered [] [0x06]) := rfl

/-! Vectors of spec/95_test_vectors.md: one block with `H_SIP`, one with `H_TEST`. -/

/-- V-H-1, the empty message and the label of node 1. -/
theorem test_hash_check_values :
    (hSip (fixtureParams hSip).masterKey []).toList = [0x31, 0x0E, 0x0E, 0xDD, 0x47, 0xDB, 0x6F, 0x72] ∧
    (hTest (fixtureParams hTest).masterKey [0x45, 0x4E, 0x43, 0x01, 0x00, 0x01]).toList =
      [0x91, 0x1E, 0x45, 0x31, 0xA1, 0x06, 0x18, 0xF5] := by decide +kernel

/-- V-KDF-SIP, id 255: the KDF command rejects no id. -/
theorem test_kdf_vector :
    (transactPacket (fixtureParams hSip) [0x01, 0xFF] []).2 =
      [0x00, 0x41, 0xDC, 0x9C, 0x7D, 0xB5, 0xB8, 0xE3, 0xBC, 0x61, 0x96, 0xBB, 0xA4, 0xD4, 0x6E, 0xB3, 0x56,
       0x94, 0x58, 0x64, 0xE6, 0x9A, 0xB8, 0xCB, 0xA0, 0x31, 0x72, 0xB6, 0xEE, 0x1C, 0x63, 0x56, 0x1D] := by
  decide +kernel

/-- V-KSG-SIP, nonce 0, 9 bytes: the second block is cut to its first byte. -/
theorem test_ksg_vector_cut :
    (transactPacket (fixtureParams hSip)
      [0x02, 0x22, 0x7F, 0xC7, 0x3E, 0x82, 0xBB, 0x9E, 0x6E, 0x62, 0x8D, 0x63, 0xEB, 0x00, 0x64, 0xDC, 0x6B,
       0x00, 0x00, 0x00, 0x00, 0x09, 0x00, 0x00, 0x00] []).2 =
      [0x00, 0xFB, 0xAC, 0x6C, 0x9A, 0x4D, 0xB2, 0xD7, 0xC5, 0x0C] := by decide +kernel

/-- V-KSG-SIP, nonce 0x01020304, 24 bytes: three whole blocks. -/
theorem test_ksg_vector_three_blocks :
    (transactPacket (fixtureParams hSip)
      [0x02, 0x22, 0x7F, 0xC7, 0x3E, 0x82, 0xBB, 0x9E, 0x6E, 0x62, 0x8D, 0x63, 0xEB, 0x00, 0x64, 0xDC, 0x6B,
       0x04, 0x03, 0x02, 0x01, 0x18, 0x00, 0x00, 0x00] []).2 =
      [0x00, 0x5A, 0x7A, 0xA2, 0xD5, 0x03, 0x4B, 0xEF, 0x49, 0x68, 0x7E, 0xAF, 0xD8, 0xA3, 0x12, 0x3E, 0x28, 0x5F,
       0xE4, 0x42, 0x67, 0xF1, 0x8C, 0x2F, 0x3C] := by decide +kernel

/-- V-ENC-1-SIP. -/
theorem test_enc_vector :
    (transactPacket (fixtureParams hSip)
      [0x03, 0x01, 0x00, 0x00, 0x00, 0x00, 0xE8, 0x03, 0x00, 0x00, 0x0C, 0xFE, 0xFF, 0xFF, 0xC8, 0x00, 0x00, 0x00, 0xE1,
       0x00] []).2 =
      [0x00, 0x01, 0x00, 0x00, 0x00, 0x00, 0xFA, 0x44, 0x6F, 0x9A, 0x4D, 0xBE, 0x29, 0x3A, 0xF3, 0xF9, 0x68, 0x7D, 0x33,
       0x73, 0x8B, 0x70, 0xD8, 0x17, 0x0F, 0xEC, 0xD7, 0xD4, 0xFB] := by decide +kernel

/-- V-ENC-2 row 2, `H_TEST`: the largest node id, the largest sequence number, the extreme field values. -/
theorem test_enc_vector_extremes :
    (transactPacket (fixtureParams hTest)
      [0x03, 0x04, 0xFF, 0xFF, 0xFF, 0xFF, 0xFF, 0xFF, 0xFF, 0x7F, 0x00, 0x00, 0x00, 0x80, 0x00, 0x00, 0x00, 0x00, 0x00,
       0x80] []).2 =
      [0x00, 0x04, 0xFF, 0xFF, 0xFF, 0xFF, 0x69, 0x80, 0x7A, 0xE8, 0x36, 0xC0, 0xDF, 0x2E, 0x79, 0x3B, 0xBB, 0x6D, 0x51,
       0x6C, 0x5A, 0x40, 0x78, 0x77, 0x63, 0x3F, 0x12, 0x5A, 0x86] := by decide +kernel

/-- V-DEC-SIP row 7: the frame of V-ENC-1 and two bytes more, on a fresh table. -/
theorem test_dec_vector_accepts :
    transactPacket (fixtureParams hSip)
      [0x04, 0x1E, 0x01, 0x00, 0x00, 0x00, 0x00, 0xFA, 0x44, 0x6F, 0x9A, 0x4D, 0xBE, 0x29, 0x3A, 0xF3, 0xF9, 0x68, 0x7D,
       0x33, 0x73, 0x8B, 0x70, 0xD8, 0x17, 0x0F, 0xEC, 0xD7, 0xD4, 0xFB, 0xAA, 0xBB] [] =
      ([(1, ⟨true, 0⟩)],
       [0x00, 0x01, 0x00, 0x00, 0x00, 0x00, 0xE8, 0x03, 0x00, 0x00, 0x0C, 0xFE, 0xFF, 0xFF, 0xC8, 0x00, 0x00, 0x00, 0xE1,
        0x00]) := by decide +kernel

/-- V-DEC-SIP row 10: a wrong message type is reported after the table was updated. -/
theorem test_dec_vector_wrong_message_type :
    transactPacket (fixtureParams hSip)
      [0x04, 0x1C, 0x01, 0x09, 0x00, 0x00, 0x00, 0xDA, 0x63, 0x7C, 0x43, 0xA5, 0x1F, 0x93, 0x0C, 0xB9, 0x85, 0xB2, 0x7C,
       0xD4, 0x0F, 0x84, 0xF6, 0x04, 0xA1, 0xB8, 0xAD, 0x09, 0x71, 0x9C] [(1, ⟨true, 5⟩)] =
      ([(1, ⟨true, 9⟩)], [0x02]) := by decide +kernel

/-- V-CMD-1: a DEC packet whose `len` byte is wrong. -/
theorem test_reserved_vector :
    transactPacket (fixtureParams hSip) [0x04, 0x02, 0xAA] [(3, ⟨true, 4⟩)] = ([(3, ⟨true, 4⟩)], [0x06]) := by
  decide +kernel

/-- The line of V-ENC-1 and its packet (R63). -/
theorem test_assembler_enc :
    assembleLine "ENC 1, 0, 1000, -500, 200, 225".toList =
      some [0x03, 0x01, 0x00, 0x00, 0x00, 0x00, 0xE8, 0x03, 0x00, 0x00, 0x0C, 0xFE, 0xFF, 0xFF, 0xC8, 0x00, 0x00, 0x00,
            0xE1, 0x00] := by decide +kernel

/-- An operand that does not fit its field is refused (R63). -/
theorem test_assembler_refuses_node_id_256 : readLine "KDF 256".toList = .refused := by decide +kernel

/-! Witnesses. The block's parameters are opaque, so the frames are built from them: the tag is the one the block
expects, or its complement; the plaintext's first byte is chosen. -/

/-- A plaintext with a given first byte. -/
def plainOf (first : Byte) : Payload := #v[first, 0, 0, 0, 0, 0, 0, 0, 0, 0, 0, 0, 0, 0, 0]

/-- A frame of the block for any node id, authentic, with a plaintext whose first byte is given. -/
def authentic (id : Byte) (txSeq : U32) (first : Byte) : SecureFrame :=
  let ct := xorBytes (plainOf first) (ksg Config.block (kdf Config.block id).enc txSeq 15)
  { nodeId := id, txSeq, ciphertext := ct,
    tag := Config.block.hash (kdf Config.block id).mac (taggedMessage id txSeq ct) }

/-- The same frame with every bit of the tag flipped. -/
def forged (id : Byte) (txSeq : U32) (first : Byte) : SecureFrame :=
  { authentic id txSeq first with tag := (authentic id txSeq first).tag.map (~~~ ·) }

/-- The received bytes of a frame. -/
def received (f : SecureFrame) : Packet := (frameBytes f).toList

/-- The block's own message type. -/
def goodType : Byte := Config.block.msgType

/-- Another message type. -/
def otherType : Byte := ~~~ Config.block.msgType

/-- The state with a given SEQT and nothing else. -/
def withTable (m : Memory) : State := { seqt := m, inputs := [], responses := [] }

theorem received_length (f : SecureFrame) : (received f).length = 28 := by simp [received]

theorem received_take (f : SecureFrame) : (received f).take 20 = taggedMessage f.nodeId f.txSeq f.ciphertext := by
  simp [received]

theorem frame_of_received (f : SecureFrame) (h : unLe32 (le32 f.txSeq) = f.txSeq) :
    frameOfData (received f) = some f := by
  obtain ⟨id, q, ct, tg⟩ := f
  show frameOfData (frameBytes _).toList = _
  simp only [frameOfData]
  rw [dif_pos (by simp)]
  congr 1
  simp only [SecureFrame.mk.injEq]
  refine ⟨by simp [byteAt, taggedMessage, header], ?_, ?_, ?_⟩
  · refine Eq.trans (congrArg unLe32 (bytes_ext ?_)) h
    simp [taggedMessage, header]
  · apply bytes_ext; simp [taggedMessage, header]
  · apply bytes_ext; simp [taggedMessage, header, List.drop_append]

theorem frame_of_authentic {q : U32} (id first : Byte) (h : unLe32 (le32 q) = q) :
    frameOfData (received (authentic id q first)) = some (authentic id q first) :=
  frame_of_received _ h

theorem frame_of_forged {q : U32} (id first : Byte) (h : unLe32 (le32 q) = q) :
    frameOfData (received (forged id q first)) = some (forged id q first) :=
  frame_of_received _ h

theorem authentic_passes (id first : Byte) (q : U32) :
    TagPasses Config.block (received (authentic id q first)) (authentic id q first) := by
  rw [TagPasses, received_take]; rfl

theorem complement_ne (v : HashOutput) : v.map (~~~ ·) ≠ v := by
  intro h
  have : ~~~ v[0] = v[0] := by
    simpa only [Vector.getElem_map] using congrArg (fun w : HashOutput => w[0]) h
  generalize v[0] = b at this
  revert b
  decide

theorem forged_fails (id first : Byte) (q : U32) :
    ¬ TagPasses Config.block (received (forged id q first)) (forged id q first) := by
  rw [TagPasses, received_take]
  exact (complement_ne (authentic id q first).tag).symm

theorem zip_head {l : Packet} (k : Packet) (first : Byte) (h : l.head? = some first) (hk : k ≠ []) :
    (List.zipWith (· ^^^ ·) (List.zipWith (· ^^^ ·) l k) k)[0]? = some first := by
  match l, k, hk with
  | [], _, _ => simp at h
  | a :: l, b :: k, _ => simp at h; subst h; simp

theorem plaintext_head (id first : Byte) (q : U32) :
    (plaintextOf Config.block (authentic id q first))[0]? = some first := by
  rw [plaintextOf, authentic, xorBytes_toList]
  exact zip_head _ _ rfl (by intro h; have := congrArg List.length h; simp at this)

theorem decrypted_type (id first : Byte) (q : U32) :
    (decryptFrame Config.block (authentic id q first)).msgType = first := by
  have h := plaintext_head id first q
  rw [plaintextOf, ← xorBytes_toList] at h
  simp only [decryptFrame, unpack]
  generalize xorBytes _ _ = v at h ⊢
  simpa using h

theorem other_ne_good : otherType ≠ goodType := by
  unfold otherType goodType
  generalize Config.block.msgType = b
  revert b
  decide

theorem one_valid : NodeIdValid Config.block 1 := ⟨by decide, (maxNodes_range Config.block).1⟩

theorem zero_invalid : ¬ NodeIdValid Config.block 0 := fun h => absurd h.1 (by decide)

theorem fresh_on_reset (id : Byte) (q : U32) : Fresh [] id q := fun h => absurd h (by simp [memRead, lookupEntry, SeqEntry.atReset])

/-- After 5 was accepted for node 1: 6 is fresh, 5 is not. -/
theorem fresh_after_five : Fresh [(1, ⟨true, 5⟩)] 1 6 := by unfold Fresh; decide

theorem not_fresh_after_five : ¬ Fresh [(1, ⟨true, 5⟩)] 1 5 := by unfold Fresh; decide

theorem valid_one : nodeIdInvalid Config.block 1 = false := (nodeIdInvalid_eq_false_iff _ _).mpr one_valid

theorem validated (q : U32) :
    ∃ sf, validateFrame Config.block (authentic 1 q goodType) = .ok sf := by
  have h : (decryptFrame Config.block (authentic 1 q goodType)).msgType = Config.block.msgType := decrypted_type _ _ _
  have h0 : ¬ nodeIdInvalid Config.block (authentic 1 q goodType).nodeId = true := Bool.eq_false_iff.mp valid_one
  exact ⟨_, by simp only [validateFrame]; rw [if_neg (not_not.mpr h), if_neg h0]⟩

theorem validated_type (id : Byte) (q : U32) :
    validateFrame Config.block (authentic id q otherType) = .error .msgType := by
  have h : (decryptFrame Config.block (authentic id q otherType)).msgType ≠ Config.block.msgType := by
    rw [decrypted_type]; exact other_ne_good
  simp [validateFrame, h]

theorem validated_id (q : U32) : validateFrame Config.block (authentic 0 q goodType) = .error .nodeId := by
  have h : (decryptFrame Config.block (authentic 0 q goodType)).msgType = Config.block.msgType := decrypted_type _ _ _
  have h0 : nodeIdInvalid Config.block (authentic 0 q goodType).nodeId = true := rfl
  simp only [validateFrame]
  rw [if_neg (not_not.mpr h), if_pos h0]

/-- One DEC of an authentic frame on a table in which it is fresh. -/
theorem dec_answers (id first : Byte) {q : U32} (hq : unLe32 (le32 q) = q) (s : State) (hr : Fresh s.seqt id q) :
    exec (.dec (received (authentic id q first))) s =
      .next (s.answered (acceptSeq s.seqt (authentic id q first))
        (responsePacket { seqt := acceptSeq s.seqt (authentic id q first),
                          result := (validateFrame Config.block (authentic id q first)).map sensorFrameBytes })) := by
  rw [exec_eq, transact_dec_accepted (frame_of_authentic id first hq) (authentic_passes id first q) hr]

/-! One witness or more for each obligation with hypotheses, named after it. -/

theorem witness_DecodeOfEncodeIsIdentity :
    (Instr.dec (List.replicate 255 0xFF)).wellFormed = true ∧ (Instr.reserved []).wellFormed = true := by
  decide +kernel

/-- Packets for the four clauses: the first and the last byte of each format at the ends of their ranges. -/
theorem witness_DecodeFollowsTheFormats :
    (([0x01, 0xFF] : Packet).length = 2 ∧ ([0x01, 0xFF] : Packet)[0]? = some 0x01) ∧
    (([0x02] ++ List.replicate 24 0xFF : Packet).length = 25 ∧
      ([0x02] ++ List.replicate 24 0xFF : Packet)[0]? = some 0x02) ∧
    (([0x03] ++ List.replicate 19 0xFF : Packet).length = 20 ∧
      ([0x03] ++ List.replicate 19 0xFF : Packet)[0]? = some 0x03) ∧
    (([0x04, 0x00] : Packet)[1]? = some 0x00 ∧ ([0x04, 0x00] : Packet).length = 2 + (0x00 : Byte).toNat) ∧
    (([0x04, 0xFF] ++ List.replicate 255 0x00 : Packet)[1]? = some 0xFF ∧
      ([0x04, 0xFF] ++ List.replicate 255 0x00 : Packet).length = 2 + (0xFF : Byte).toNat) := by decide +kernel

/-- A malformed packet of every cause, and a state whose next event it is. -/
theorem witness_MalformedPacketsAnswerErrCmd :
    NotACommand [] ∧ NotACommand [0x00] ∧ NotACommand [0x05, 0x01] ∧ NotACommand [0xFF] ∧ NotACommand [0x01] ∧
    NotACommand [0x02] ∧ NotACommand (0x03 :: List.replicate 20 0x00) ∧ NotACommand [0x04] ∧
    NotACommand [0x04, 0x00, 0xAA] ∧ (presentPacket [0x00] State.reset).inputs = .command [0x00] :: [] := by
  have one : ∀ (len : Byte), some (0x00 : Byte) = some len → (3 : Nat) = 2 + len.toNat → False := by
    intro len h h'; cases h; cases h'
  refine ⟨.inl rfl, .inr (.inl ⟨0x00, rfl, by decide⟩), .inr (.inl ⟨0x05, rfl, by decide⟩),
    .inr (.inl ⟨0xFF, rfl, by decide⟩), .inr (.inr (.inl ⟨rfl, by decide⟩)),
    .inr (.inr (.inr (.inl ⟨rfl, by decide⟩))), .inr (.inr (.inr (.inr (.inl ⟨rfl, by decide⟩)))),
    .inr (.inr (.inr (.inr (.inr ⟨rfl, fun ⟨_, h, _⟩ => by cases h⟩)))),
    .inr (.inr (.inr (.inr (.inr ⟨rfl, fun ⟨len, h, h'⟩ => one len h h'⟩)))), rfl⟩

theorem witness_StepRunsDecodedCommand :
    (presentPacket [0x01, 0x00] State.reset).inputs = .command [0x01, 0x00] :: [] ∧
    decode [0x01, 0x00] = .kdf 0x00 ∧ (Instr.kdf 0x00).wellFormed = true ∧
    decodeTableWord 8 0x01 = some (.kdf 0x00) := by decide

theorem witness_ResetEventClearsSeqt :
    ({ seqt := [(1, ⟨true, 5⟩)], inputs := [.reset], responses := [] } : State).inputs = .reset :: [] := rfl

theorem witness_IdleStepChangesNothing : State.reset.inputs = [] := rfl

theorem witness_OkResponseLengths :
    (∃ t rest, exec (.kdf 0xFF) State.reset = .next t ∧ t.responses = State.reset.responses ++ [0x00 :: rest]) ∧
    (∃ t rest, exec (.ksg (kdf Config.block 0).enc 0 9) State.reset = .next t ∧
      t.responses = State.reset.responses ++ [0x00 :: rest]) ∧
    (∃ f t rest, exec (.enc f) State.reset = .next t ∧ t.responses = State.reset.responses ++ [0x00 :: rest]) ∧
    (∃ data t rest, exec (.dec data) State.reset = .next t ∧ t.responses = State.reset.responses ++ [0x00 :: rest]) := by
  refine ⟨⟨_, _, rfl, rfl⟩, ⟨_, _, rfl, rfl⟩, ⟨⟨1, 0, #v[0, 0, 0, 0], #v[0, 0, 0, 0], #v[0, 0, 0, 0], #v[0, 0]⟩, ?_⟩,
    ⟨received (authentic 1 0 goodType), ?_⟩⟩
  · refine ⟨_, ?_, exec_eq _ _, ?_⟩
    rotate_left
    · simp only [transact, encCommand, encodeFrame, valid_one]
      rfl
  · obtain ⟨sf, h⟩ := validated 0
    refine ⟨_, sensorFrameBytes sf, dec_answers 1 goodType (by decide) State.reset (fresh_on_reset _ _), ?_⟩
    rw [h]
    rfl

theorem witness_CommandSeesOnlySeqt :
    (withTable [(1, ⟨true, 5⟩)]).seqt = ((withTable [(1, ⟨true, 5⟩)]).answered [(1, ⟨true, 5⟩)] [0x04]).seqt := rfl

/-- A KDF, and RESERVED: nothing but DEC. -/
theorem witness_RepeatedPackets_not_dec :
    (∃ t rest, exec (decode [0x01, 0x01]) State.reset = .next t ∧
      t.responses = State.reset.responses ++ [0x00 :: rest]) ∧
    (∀ data, decode [0x01, 0x01] ≠ .dec data) ∧
    (∃ t, exec (decode []) State.reset = .next t ∧ t.responses = State.reset.responses ++ [[0x06]]) :=
  ⟨⟨_, _, rfl, rfl⟩, fun _ h => Instr.noConfusion (show Instr.kdf 0x01 = _ from h), ⟨_, rfl, rfl⟩⟩

theorem decode_dec_frame (f : SecureFrame) : decode (0x04 :: 0x1C :: received f) = .dec (received f) := by
  simp [decode, decodeDec, opKdf, opKsg, opEnc, opDec, received_length]

/-- A DEC that ends with each of the statuses of its three clauses. -/
theorem witness_RepeatedPackets_dec :
    (∃ t rest, exec (decode (0x04 :: 0x1C :: received (authentic 1 0 goodType))) State.reset = .next t ∧
      t.responses = State.reset.responses ++ [0x00 :: rest]) ∧
    (∃ t, exec (decode (0x04 :: 0x1C :: received (authentic 1 0 otherType))) State.reset = .next t ∧
      t.responses = State.reset.responses ++ [[0x02]]) ∧
    (∃ t, exec (decode (0x04 :: 0x1C :: received (authentic 0 0 goodType))) State.reset = .next t ∧
      t.responses = State.reset.responses ++ [[0x05]]) ∧
    (∃ t, exec (decode [0x04, 0x00]) State.reset = .next t ∧ t.responses = State.reset.responses ++ [[0x01]]) ∧
    (∃ t, exec (decode (0x04 :: 0x1C :: received (forged 1 0 goodType))) State.reset = .next t ∧
      t.responses = State.reset.responses ++ [[0x03]]) ∧
    (∃ t, exec (decode (0x04 :: 0x1C :: received (authentic 1 5 goodType))) (withTable [(1, ⟨true, 5⟩)]) = .next t ∧
      t.responses = (withTable [(1, ⟨true, 5⟩)]).responses ++ [[0x04]]) := by
  simp only [decode_dec_frame]
  refine ⟨?_, ?_, ?_, ⟨_, rfl, rfl⟩, ?_, ?_⟩
  · obtain ⟨sf, h⟩ := validated 0
    refine ⟨_, sensorFrameBytes sf, dec_answers 1 goodType (by decide) State.reset (fresh_on_reset _ _), ?_⟩
    rw [h]; rfl
  · refine ⟨_, dec_answers 1 otherType (by decide) State.reset (fresh_on_reset _ _), ?_⟩
    rw [validated_type]; rfl
  · refine ⟨_, dec_answers 0 goodType (by decide) State.reset (fresh_on_reset _ _), ?_⟩
    rw [validated_id]; rfl
  · refine ⟨_, exec_eq _ _, ?_⟩
    rw [transact_dec_forged (frame_of_forged 1 goodType (by decide)) (forged_fails _ _ _)]; rfl
  · refine ⟨_, exec_eq _ _, ?_⟩
    rw [transact_dec_replayed (m := (withTable [(1, ⟨true, 5⟩)]).seqt) (frame_of_authentic 1 goodType (by decide))
      (authentic_passes _ _ _) not_fresh_after_five]; rfl

theorem witness_SignedFieldsAreTwosComplement :
    (-2147483648 : Int) ≤ -2147483648 ∧ (-2147483648 : Int) ≤ 2147483647 ∧ (-32768 : Int) ≤ -32768 ∧
    (-32768 : Int) ≤ 32767 := by decide

/-- The payload of V-ENC-1. -/
theorem witness_PackUnpackInverse :
    unpack (pack (fixtureParams hSip) (writeI32 1000) (writeI32 (-500)) (writeI32 200) (writeI16 225)) =
      { msgType := (fixtureParams hSip).msgType, x := writeI32 1000, y := writeI32 (-500), z := writeI32 200,
        tempTenths := writeI16 225 } := by decide +kernel

theorem witness_XorLaws : (14 : Nat) < 15 := by decide

theorem witness_LabelMessagesDistinct : label .enc 0xFF = label .enc 0xFF := rfl

theorem witness_KeystreamBytes : (8 : Nat) < (9 : U32).toNat := by decide

theorem witness_KsgAnswersTheKeystream : (0xFFFFFFFE : Nat) < (0xFFFFFFFF : U32).toNat := by decide

theorem witness_KeystreamPrefix : (9 : Nat) ≤ 15 := by decide

theorem witness_BlockMessagesDistinct :
    blockMessage 0xFFFFFFFF 1 = blockMessage 0xFFFFFFFF 1 ∧ 536870911 < blockCount (0xFFFFFFFF : U32).toNat := by
  decide

theorem witness_EncAnswersTheFrame : NodeIdValid Config.block 1 := one_valid

theorem witness_EncRejectsInvalidNodeId :
    ((0 : Byte).toNat = 0 ∨ Config.block.maxNodes < (0 : Byte).toNat) ∧
    (fixtureParams hSip).maxNodes < (5 : Byte).toNat := ⟨.inl rfl, by decide⟩

/-- Two frames of node 1 and sequence number 0 in one block (V-ENC-1 and V-ENC-2 row 4). -/
theorem witness_ReusedSequenceNumberReusesKeystream :
    (encodeFrame (fixtureParams hSip)
      { nodeId := 1, txSeq := 0, x := writeI32 1000, y := writeI32 (-500), z := writeI32 200, tempTenths := writeI16 225 }).isOk
      = true ∧
    (encodeFrame (fixtureParams hSip)
      { nodeId := 1, txSeq := 0, x := writeI32 0, y := writeI32 0, z := writeI32 0, tempTenths := writeI16 0 }).isOk
      = true := by decide +kernel

theorem witness_ReceivedFrameSplit : 28 ≤ (received (authentic 1 0 goodType)).length :=
  Nat.le_of_eq (received_length _).symm

theorem witness_DecChecksTheLengthFirst :
    ([] : Packet).length < 28 ∧ (List.replicate 27 (0x00 : Byte)).length < 28 ∧
    28 ≤ (received (authentic 1 0 goodType)).length ∧ 28 ≤ (received (authentic 1 0 goodType) ++ [0xAA, 0xBB]).length := by
  refine ⟨by decide, by decide, ?_, ?_⟩ <;> simp [received_length]

theorem witness_DecRejectsWrongTag :
    frameOfData (received (forged 1 0 goodType)) = some (forged 1 0 goodType) ∧
    ¬ TagPasses Config.block (received (forged 1 0 goodType)) (forged 1 0 goodType) :=
  ⟨frame_of_forged _ _ (by decide), forged_fails _ _ _⟩

/-- The stored number equal to the frame's, one below it, and no number stored; for a wrong tag see
`witness_DecRejectsWrongTag`. -/
theorem witness_DecReplayCheck :
    frameOfData (received (authentic 1 5 goodType)) = some (authentic 1 5 goodType) ∧
    TagPasses Config.block (received (authentic 1 5 goodType)) (authentic 1 5 goodType) ∧
    ((memRead (withTable [(1, ⟨true, 5⟩)]).seqt 1).valid = true ∧
      (5 : U32).toNat ≤ (memRead (withTable [(1, ⟨true, 5⟩)]).seqt 1).last.toNat) ∧
    (memRead (withTable [(1, ⟨true, 4⟩)]).seqt 1).last.toNat < (5 : U32).toNat ∧
    (memRead State.reset.seqt 1).valid = false :=
  ⟨frame_of_authentic _ _ (by decide), authentic_passes _ _ _, by decide, by decide, by decide⟩

theorem witness_DecRecordsTheSequenceNumber :
    frameOfData (received (authentic 1 6 goodType)) = some (authentic 1 6 goodType) ∧
    TagPasses Config.block (received (authentic 1 6 goodType)) (authentic 1 6 goodType) ∧
    Fresh (withTable [(1, ⟨true, 5⟩)]).seqt 1 6 :=
  ⟨frame_of_authentic _ _ (by decide), authentic_passes _ _ _, fresh_after_five⟩

theorem witness_DecRejectsWrongMessageType :
    frameOfData (received (authentic 1 6 otherType)) = some (authentic 1 6 otherType) ∧
    TagPasses Config.block (received (authentic 1 6 otherType)) (authentic 1 6 otherType) ∧
    Fresh (withTable [(1, ⟨true, 5⟩)]).seqt 1 6 ∧
    (plaintextOf Config.block (authentic 1 6 otherType))[0]? ≠ some Config.block.msgType :=
  ⟨frame_of_authentic _ _ (by decide), authentic_passes _ _ _, fresh_after_five,
    by rw [plaintext_head]; exact fun h => other_ne_good (Option.some.inj h)⟩

theorem witness_DecRejectsInvalidNodeId :
    frameOfData (received (authentic 0 0 goodType)) = some (authentic 0 0 goodType) ∧
    TagPasses Config.block (received (authentic 0 0 goodType)) (authentic 0 0 goodType) ∧
    Fresh State.reset.seqt 0 0 ∧
    (plaintextOf Config.block (authentic 0 0 goodType))[0]? = some Config.block.msgType ∧
    ((0 : Byte).toNat = 0 ∨ Config.block.maxNodes < (0 : Byte).toNat) :=
  ⟨frame_of_authentic _ _ (by decide), authentic_passes _ _ _, fresh_on_reset _ _, plaintext_head _ _ _, .inl rfl⟩

theorem witness_DecAnswersTheSensorFrame :
    frameOfData (received (authentic 1 0 goodType)) = some (authentic 1 0 goodType) ∧
    TagPasses Config.block (received (authentic 1 0 goodType)) (authentic 1 0 goodType) ∧
    Fresh State.reset.seqt 1 0 ∧
    (plaintextOf Config.block (authentic 1 0 goodType))[0]? = some Config.block.msgType ∧ NodeIdValid Config.block 1 :=
  ⟨frame_of_authentic _ _ (by decide), authentic_passes _ _ _, fresh_on_reset _ _, plaintext_head _ _ _, one_valid⟩

/-- A packet for each clause that the witnesses of DEC and of malformed packets do not give already. -/
theorem witness_FirstApplicableErrorIsReported :
    NotACommand [] ∧ decode [0x01, 0x00] = .kdf 0x00 ∧
    decode (0x02 :: List.replicate 24 0x00) = .ksg #v[0, 0, 0, 0, 0, 0, 0, 0, 0, 0, 0, 0, 0, 0, 0, 0] 0 0 ∧
    (∃ f, decode (0x03 :: 0x01 :: List.replicate 18 0x00) = .enc f ∧ NodeIdValid Config.block f.nodeId) ∧
    (∃ f, decode (0x03 :: 0x00 :: List.replicate 18 0x00) = .enc f ∧ ¬ NodeIdValid Config.block f.nodeId) ∧
    decode [0x04, 0x00] = .dec [] ∧
    decode (0x04 :: 0x1C :: received (authentic 1 5 otherType)) = .dec (received (authentic 1 5 otherType)) ∧
    decode (0x04 :: 0x1C :: received (authentic 0 0 goodType)) = .dec (received (authentic 0 0 goodType)) :=
  ⟨.inl rfl, rfl, by decide, ⟨_, rfl, one_valid⟩, ⟨_, rfl, zero_invalid⟩, rfl, decode_dec_frame _, decode_dec_frame _⟩

theorem witness_ErrorsAndState :
    (∃ t, exec (.reserved []) State.reset = .next t ∧ t.responses = State.reset.responses ++ [[0x06]]) ∧
    (∃ t, exec (.enc ⟨0, 0, #v[0, 0, 0, 0], #v[0, 0, 0, 0], #v[0, 0, 0, 0], #v[0, 0]⟩) State.reset = .next t ∧
      t.responses = State.reset.responses ++ [[0x05]]) ∧
    (∃ t, exec (.dec (received (authentic 1 0 otherType))) State.reset = .next t ∧
      t.responses = State.reset.responses ++ [[0x02]]) ∧
    (∃ t, exec (.dec (received (authentic 0 0 goodType))) State.reset = .next t ∧
      t.responses = State.reset.responses ++ [[0x05]]) := by
  have h := witness_RepeatedPackets_dec
  simp only [decode_dec_frame] at h
  exact ⟨⟨_, rfl, rfl⟩, ⟨_, rfl, rfl⟩, h.2.1, h.2.2.1⟩

/-- V-DEC-SIP rows 1 and 3, and no data at all. -/
theorem witness_VerifyThenDecrypt :
    (transact (fixtureParams hSip)
      (.dec [0x01, 0x00, 0x00, 0x00, 0x00, 0xFA, 0x44, 0x6F, 0x9A, 0x4D, 0xBE, 0x29, 0x3A, 0xF3, 0xF9, 0x68, 0x7D, 0x33,
        0x73, 0x8B, 0x70, 0xD8, 0x17, 0x0F, 0xEC, 0xD7, 0xD4, 0xFB]) []).seqt ≠ [] ∧
    frameOfData [] = none ∧
    (frameOfData (received (forged 1 0 goodType)) = some (forged 1 0 goodType) ∧
      ¬ (TagPasses Config.block (received (forged 1 0 goodType)) (forged 1 0 goodType) ∧ Fresh [] 1 0)) ∧
    (responsePacket (transact (fixtureParams hSip) (.dec []) []) = [0x01] ∧ (0x01 : Byte) ≠ 0x00) :=
  ⟨by decide +kernel, rfl, ⟨frame_of_forged _ _ (by decide), fun h => forged_fails _ _ _ h.1⟩, rfl, by decide⟩

theorem witness_RoundTrip : NodeIdValid Config.block 1 ∧ Fresh (withTable [(1, ⟨true, 5⟩)]).seqt 1 6 :=
  ⟨one_valid, fresh_after_five⟩

/-- A receiver with another `MAX_NODES`. -/
theorem witness_BlocksInteroperate :
    (encodeFrame (fixtureParams hSip)
      { nodeId := 4, txSeq := 0, x := writeI32 1000, y := writeI32 (-500), z := writeI32 200, tempTenths := writeI16 225 }).isOk
      = true ∧
    (4 : Byte).toNat ≤ ({ fixtureParams hSip with maxNodesPred := 9 } : Params).maxNodes ∧
    ({ fixtureParams hSip with maxNodesPred := 9 } : Params).hash = (fixtureParams hSip).hash ∧
    ({ fixtureParams hSip with maxNodesPred := 9 } : Params).masterKey = (fixtureParams hSip).masterKey ∧
    ({ fixtureParams hSip with maxNodesPred := 9 } : Params).msgType = (fixtureParams hSip).msgType ∧
    Fresh State.reset.seqt 4 0 :=
  ⟨by decide +kernel, by decide, rfl, rfl, rfl, fresh_on_reset _ _⟩

/-- A first frame with number 6, answered `OK`, a later one of the same node with number 5, and a run of one command
between them. -/
theorem witness_NoFrameAcceptedTwice :
    frameOfData (received (authentic 1 6 goodType)) = some (authentic 1 6 goodType) ∧
    frameOfData (received (authentic 1 5 goodType)) = some (authentic 1 5 goodType) ∧
    (5 : U32).toNat ≤ (6 : U32).toNat ∧
    ∃ t u rest, exec (.dec (received (authentic 1 6 goodType))) State.reset = .next t ∧
      t.responses = State.reset.responses ++ [0x00 :: rest] ∧ CommandRun t u := by
  refine ⟨frame_of_authentic _ _ (by decide), frame_of_authentic _ _ (by decide), by decide, ?_⟩
  obtain ⟨sf, h⟩ := validated 6
  refine ⟨_, _, sensorFrameBytes sf, dec_answers 1 goodType (by decide) State.reset (fresh_on_reset _ _), ?_,
    .tail (.kdf 0) (.refl _) rfl⟩
  rw [h]; rfl

/-- The tag of an acceptable frame changed; its sequence number changed, with a tag the block does not expect there. -/
theorem witness_TamperedFramesAreRejected :
    (frameOfData (received (authentic 1 0 goodType)) = some (authentic 1 0 goodType) ∧
      TagPasses Config.block (received (authentic 1 0 goodType)) (authentic 1 0 goodType) ∧
      Fresh State.reset.seqt 1 0) ∧
    (frameOfData (received (forged 1 0 goodType)) = some (forged 1 0 goodType) ∧
      (received (forged 1 0 goodType)).take 20 = (received (authentic 1 0 goodType)).take 20 ∧
      ((received (forged 1 0 goodType)).drop 20).take 8 ≠ ((received (authentic 1 0 goodType)).drop 20).take 8) ∧
    (frameOfData (received (forged 1 1 goodType)) = some (forged 1 1 goodType) ∧
      (received (forged 1 1 goodType)).take 20 ≠ (received (authentic 1 0 goodType)).take 20 ∧
      Config.block.hash (kdf Config.block 1).mac ((received (forged 1 1 goodType)).take 20) ≠
        (forged 1 1 goodType).tag) := by
  have tail : ∀ f : SecureFrame, ((received f).drop 20).take 8 = f.tag.toList := by
    intro f
    simp only [received, frameBytes_toList]
    rw [List.drop_left' (taggedMessage_length _ _ _)]
    simp
  refine ⟨⟨frame_of_authentic _ _ (by decide), authentic_passes _ _ _, fresh_on_reset _ _⟩,
    ⟨frame_of_forged _ _ (by decide), by rw [received_take, received_take]; rfl, ?_⟩,
    ⟨frame_of_forged _ _ (by decide), ?_, forged_fails _ _ _⟩⟩
  · rw [tail, tail]
    exact fun h => complement_ne _ (bytes_ext h)
  · rw [received_take, received_take]
    intro h
    have := congrArg (fun l : Packet => l[1]?) h
    simp [taggedMessage, header, forged, authentic, le32] at this

theorem witness_StepKeepsInvariant :
    (withTable [(1, ⟨true, 5⟩)]).Inv ∧ (presentPacket [0x01, 0x01] (withTable [(1, ⟨true, 5⟩)])).Inv ∧
    ∃ t, step (presentPacket [0x01, 0x01] (withTable [(1, ⟨true, 5⟩)])) = .next t := by
  have h : SeqtZeroWhenInvalid [(1, ⟨true, 5⟩)] := by
    intro i hi
    simp only [memRead, lookupEntry] at hi ⊢
    split at hi
    · cases hi
    · rw [if_neg ‹_›]; rfl
  exact ⟨⟨rfl, h⟩, ⟨rfl, h⟩, _, rfl⟩

/-- A DEC that overwrites the valid entry 1, a DEC with no frame, and a KDF that changes nothing. -/
theorem witness_SeqtInvariants :
    (∃ t, exec (.dec (received (authentic 1 6 goodType))) (withTable [(1, ⟨true, 5⟩)]) = .next t ∧
      memRead t.seqt 1 ≠ memRead (withTable [(1, ⟨true, 5⟩)]).seqt 1) ∧
    frameOfData (received (authentic 1 6 goodType)) = some (authentic 1 6 goodType) ∧
    (memRead (withTable [(1, ⟨true, 5⟩)]).seqt 1).valid = true ∧
    SeqtZeroWhenInvalid (withTable [(1, ⟨true, 5⟩)]).seqt ∧
    (∃ t, exec (.dec (List.replicate 27 0x00)) (withTable [(1, ⟨true, 5⟩)]) = .next t) ∧
    frameOfData (List.replicate 27 0x00) = none ∧
    (∃ t, exec (.kdf 0) State.reset = .next t) ∧ (∀ data, Instr.kdf 0 ≠ .dec data) := by
  refine ⟨⟨_, dec_answers 1 goodType (by decide) _ fresh_after_five, ?_⟩, frame_of_authentic _ _ (by decide), rfl,
    witness_StepKeepsInvariant.1.2, ⟨_, rfl⟩, rfl, ⟨_, rfl⟩, fun _ h => nomatch h⟩
  rw [answered_seqt, acceptSeq, memRead_memWrite_valid]
  exact of_decide_eq_true rfl

/-- Two tables that agree at entry 1 and differ at entry 2. -/
theorem witness_EntriesAreIndependent :
    frameOfData (received (authentic 1 6 goodType)) = some (authentic 1 6 goodType) ∧
    memRead (withTable [(1, ⟨true, 5⟩)]).seqt 1 = memRead (withTable [(1, ⟨true, 5⟩), (2, ⟨true, 9⟩)]).seqt 1 ∧
    memRead (withTable [(1, ⟨true, 5⟩)]).seqt 2 ≠ memRead (withTable [(1, ⟨true, 5⟩), (2, ⟨true, 9⟩)]).seqt 2 ∧
    (∀ data, Instr.kdf 0 ≠ .dec data) :=
  ⟨frame_of_authentic _ _ (by decide), by decide, by decide, fun _ h => nomatch h⟩

/-- The largest number accepted, then the frame that wraps to 0. -/
theorem witness_SequenceSpaceExhausted :
    frameOfData (received (authentic 1 0 goodType)) = some (authentic 1 0 goodType) ∧
    memRead (withTable [(1, ⟨true, 0xFFFFFFFF⟩)]).seqt 1 = { valid := true, last := 0xFFFFFFFF } ∧
    ∃ u, CommandRun (withTable [(1, ⟨true, 0xFFFFFFFF⟩)]) u :=
  ⟨frame_of_authentic _ _ (by decide), by decide, _, .tail (.kdf 0) (.refl _) rfl⟩

theorem witness_ResetReopensTheReplayWindow :
    ({ seqt := [(1, ⟨true, 5⟩)], inputs := [.reset], responses := [] } : State).inputs = .reset :: [] ∧
    frameOfData (received (authentic 1 5 goodType)) = some (authentic 1 5 goodType) ∧
    TagPasses Config.block (received (authentic 1 5 goodType)) (authentic 1 5 goodType) ∧
    (plaintextOf Config.block (authentic 1 5 goodType))[0]? = some Config.block.msgType ∧ NodeIdValid Config.block 1 :=
  ⟨rfl, frame_of_authentic _ _ (by decide), authentic_passes _ _ _, plaintext_head _ _ _, one_valid⟩

/-- Two blocks with different hashes that agree on the messages of KDF. -/
theorem witness_HashCallsDetermineTheResult :
    let other : Params := fixtureParams (fun k msg => if msg = [] then hTest k msg else hSip k msg)
    other.masterKey = (fixtureParams hSip).masterKey ∧ other.maxNodesPred = (fixtureParams hSip).maxNodesPred ∧
    other.msgType = (fixtureParams hSip).msgType ∧
    (∀ (k : Key) (msg : Packet), (k, msg) ∈ hashCalls (fixtureParams hSip) (.kdf 1) [] →
      other.hash k msg = (fixtureParams hSip).hash k msg) ∧
    other.hash other.masterKey [] ≠ (fixtureParams hSip).hash other.masterKey [] := by
  refine ⟨rfl, rfl, rfl, fun k msg h => ?_, by decide +kernel⟩
  have hne : msg ≠ [] := by
    rintro rfl
    simp [hashCalls, kdfCalls, label, extendedLabel] at h
  exact if_neg hne

/-- An ENC that makes a frame, a DEC that decrypts and a DEC that does not. -/
theorem witness_HashMessageShapes :
    NodeIdValid Config.block 1 ∧
    (frameOfData (received (authentic 1 0 goodType)) = some (authentic 1 0 goodType) ∧
      TagPasses Config.block (received (authentic 1 0 goodType)) (authentic 1 0 goodType) ∧ Fresh [] 1 0) ∧
    (frameOfData (received (forged 1 0 goodType)) = some (forged 1 0 goodType) ∧
      ¬ (TagPasses Config.block (received (forged 1 0 goodType)) (forged 1 0 goodType) ∧ Fresh [] 1 0)) ∧
    ((fixtureParams hSip).masterKey, label .enc 1) ∈ hashCalls (fixtureParams hSip) (.kdf 1) [] :=
  ⟨one_valid, ⟨frame_of_authentic _ _ (by decide), authentic_passes _ _ _, fresh_on_reset _ _⟩,
    ⟨frame_of_forged _ _ (by decide), fun h => forged_fails _ _ _ h.1⟩, List.mem_cons_self⟩

theorem witness_AssemblerMakesCommands :
    readLine "DEC 01 0203 # three bytes".toList = .command (.dec [0x01, 0x02, 0x03]) ∧
    readLine "KDF 0xff".toList = .command (.kdf 0xFF) := by decide +kernel

/-- The unsigned clauses at the largest value of an 8-bit field and one above it, in both notations. -/
theorem witness_AssemblerNeverTruncates_unsigned :
    readNumber decimalDigit 10 "255".toList = some 255 ∧ readNumber decimalDigit 10 "256".toList = some 256 ∧
    readNumber hexDigit 16 "FF".toList = some 255 ∧ readNumber hexDigit 16 "100".toList = some 256 ∧
    readUnsigned 8 "255".toList = some 255 ∧ readUnsigned 8 "0xFF".toList = some 255 := by decide +kernel

/-- The signed decimal clauses at the ends of both ranges and one beyond them. -/
theorem witness_AssemblerNeverTruncates_signed :
    readNumber decimalDigit 10 "32767".toList = some 32767 ∧ readNumber decimalDigit 10 "32768".toList = some 32768 ∧
    readNumber decimalDigit 10 "32769".toList = some 32769 ∧
    readNumber decimalDigit 10 "2147483647".toList = some 2147483647 ∧
    readNumber decimalDigit 10 "2147483648".toList = some 2147483648 ∧
    readNumber decimalDigit 10 "2147483649".toList = some 2147483649 ∧
    readSigned 16 "32767".toList = some 0x7FFF ∧ readSigned 16 "-32768".toList = some 0x8000 ∧
    readSigned 32 "2147483647".toList = some 0x7FFFFFFF ∧
    readSigned 32 "-2147483648".toList = some 0x80000000 := by decide +kernel

/-- The hexadecimal clauses of the signed fields at the largest number of digits and one above it. -/
theorem witness_AssemblerNeverTruncates_patterns :
    readNumber hexDigit 16 "FFFF".toList = some 0xFFFF ∧ "FFFF".toList.length = 16 / 4 ∧
    readNumber hexDigit 16 "0FFFF".toList = some 0xFFFF ∧ 16 / 4 < "0FFFF".toList.length ∧
    readNumber hexDigit 16 "FFFFFFFF".toList = some 0xFFFFFFFF ∧ "FFFFFFFF".toList.length = 32 / 4 ∧
    readNumber hexDigit 16 "0FFFFFFFF".toList = some 0xFFFFFFFF ∧ 32 / 4 < "0FFFFFFFF".toList.length ∧
    readSigned 16 "0xFFFF".toList = some 0xFFFF := by decide +kernel

/-- 32768 does not fit the temperature of ENC, and nothing is cut to fit it (R63). -/
theorem test_assembler_refuses_temperature_32768 : readLine "ENC 1, 0, 0, 0, 0, 32768".toList = .refused := by
  decide +kernel

end Sys2Proof.Tests
end

section
/-!
PROOFS. Which SEQT entries a command reads and writes (10_state.md R24): DEC the entry of its frame's node id, every other
command none.
-/

namespace Sys2Proof.Proofs

open Machine Laws

variable (c : Params) {data : Packet} {f : SecureFrame} {m m₁ m₂ : Memory}

/-- Freshness reads one entry: tables that agree there agree on it (R103). -/
theorem fresh_congr {id : Byte} (q : U32) (h : memRead m₁ id = memRead m₂ id) :
    Fresh m₁ id q ↔ Fresh m₂ id q := by
  rw [Fresh, Fresh, h]

/-- What the table reads after an accepted frame (R104). -/
theorem memRead_acceptSeq (m : Memory) (f : SecureFrame) (j : Byte) :
    memRead (acceptSeq m f) j = if j = f.nodeId then { valid := true, last := f.txSeq } else memRead m j :=
  memRead_memWrite_valid m f.nodeId j f.txSeq

/-- The response packet is made from the result alone. -/
theorem responsePacket_congr {r₁ r₂ : Reply} (h : r₁.result = r₂.result) : responsePacket r₁ = responsePacket r₂ := by
  rw [responsePacket, responsePacket, h]

/-- DEC of a frame leaves the table as it was, or writes the accepted sequence number and nothing else (R104). -/
theorem transact_dec_seqt_cases (m : Memory) (hf : frameOfData data = some f) :
    (transact c (.dec data) m).seqt = m ∨ (transact c (.dec data) m).seqt = acceptSeq m f := by
  by_cases ht : TagPasses c data f
  · by_cases hr : Fresh m f.nodeId f.txSeq
    · exact .inr (by rw [transact_dec_accepted hf ht hr])
    · exact .inl (by rw [transact_dec_replayed hf ht hr])
  · exact .inl (by rw [transact_dec_forged hf ht])

/-- DEC of a frame writes no entry but that of the frame's node id. -/
theorem memRead_transact_dec_of_ne (m : Memory) (hf : frameOfData data = some f) {j : Byte} (hj : j ≠ f.nodeId) :
    memRead (transact c (.dec data) m).seqt j = memRead m j := by
  obtain h | h := transact_dec_seqt_cases c m hf
  · rw [h]
  · rw [h, memRead_acceptSeq, if_neg hj]

/-- DEC of a frame reads no entry but that of the frame's node id: tables that agree there give the same result, and agree
there afterwards. -/
theorem transact_dec_congr (hf : frameOfData data = some f) (h : memRead m₁ f.nodeId = memRead m₂ f.nodeId) :
    (transact c (.dec data) m₁).result = (transact c (.dec data) m₂).result ∧
    memRead (transact c (.dec data) m₁).seqt f.nodeId = memRead (transact c (.dec data) m₂).seqt f.nodeId := by
  by_cases ht : TagPasses c data f
  · by_cases hr : Fresh m₁ f.nodeId f.txSeq
    · have hr₂ : Fresh m₂ f.nodeId f.txSeq := (fresh_congr _ h).mp hr
      rw [transact_dec_accepted hf ht hr, transact_dec_accepted hf ht hr₂]
      exact ⟨rfl, by simp [memRead_acceptSeq]⟩
    · have hr₂ : ¬ Fresh m₂ f.nodeId f.txSeq := mt (fresh_congr _ h).mpr hr
      rw [transact_dec_replayed hf ht hr, transact_dec_replayed hf ht hr₂]
      exact ⟨rfl, h⟩
  · rw [transact_dec_forged hf ht, transact_dec_forged hf ht]
    exact ⟨rfl, h⟩

/-- The result of a command other than DEC is the same for every table. -/
theorem transact_result_of_not_dec {i : Instr} (m₁ m₂ : Memory) (h : ∀ data, i ≠ .dec data) :
    (transact c i m₁).result = (transact c i m₂).result := by
  cases i with
  | dec data => exact absurd rfl (h data)
  | _ => rfl

/-- Settles O48: `exec` is the transaction on SEQT, DEC's is local to the frame's entry, and the others' ignore the
table. -/
theorem entriesAreIndependent : Obligations.EntriesAreIndependent := by
  constructor
  · intro data f s₁ s₂ hf hread
    obtain ⟨hresult, hentry⟩ := transact_dec_congr Config.block hf hread
    refine ⟨_, _, _, exec_eq _ s₁, ?_, hentry, fun j hj => ⟨?_, ?_⟩⟩
    · rw [responsePacket_congr hresult, exec_eq]
    · exact memRead_transact_dec_of_ne Config.block s₁.seqt hf hj
    · exact memRead_transact_dec_of_ne Config.block s₂.seqt hf hj
  · intro i hi
    refine ⟨responsePacket (transact Config.block i []), fun s => ?_⟩
    rw [exec_eq, transact_seqt_of_not_dec _ _ hi,
      responsePacket_congr (transact_result_of_not_dec Config.block s.seqt [] hi)]

end Sys2Proof.Proofs
end

section
/-!
PROOFS. The packet decoder read format by format (30_encoding.md R48 to R51, R61, R62), and the two commands that always
succeed, KDF and KSG, with the byte a keystream holds at each index (R53, R54, R87).
-/

namespace Sys2Proof.Proofs

open Machine Laws

/-- The little-endian reading of a 4-byte field as a 32-bit integer wraps nothing (R8, R29). -/
theorem unLe32_toNat (s : Bytes 4) : (unLe32 s).toNat = numberOfBytes s.toList := by
  have h0 := s[0].isLt
  have h1 := s[1].isLt
  have h2 := s[2].isLt
  have h3 := s[3].isLt
  rw [toList_four, unLe32, BitVec.toNat_ofNat]
  simp only [numberOfBytes]
  omega

theorem unLe32_slice_toNat (p : Packet) (off : Nat) (h : off + 4 ≤ p.length) :
    (unLe32 (slice p off 4 h)).toNat = numberOfBytes ((p.drop off).take 4) := by
  rw [unLe32_toNat, slice_toList]

theorem getElem?_eq_byteAt {p : Packet} {i : Nat} (h : i < p.length) : p[i]? = some (byteAt p i h) :=
  List.getElem?_eq_getElem h

section DecodeByOpcode

variable {p : Packet}

/-- Byte 0 alone selects the format a packet is read with (R59, R61). -/
theorem decode_of_opcode {op : Byte} (h : p[0]? = some op) :
    decode p =
      if op = opKdf then decodeKdf p
      else if op = opKsg then decodeKsg p
      else if op = opEnc then decodeEnc p
      else if op = opDec then decodeDec p
      else .reserved p := by
  cases p with
  | nil => simp at h
  | cons b rest =>
    obtain rfl : b = op := by simpa using h
    rfl

/-- C-KDF: the node id is byte 1 (R48). -/
theorem decode_kdf_packet (hl : p.length = 2) (hop : p[0]? = some opKdf) :
    decode p = .kdf (byteAt p 1 (by omega)) := by
  rw [decode_of_opcode hop, if_pos rfl, decodeKdf, dif_pos hl]

/-- C-KSG: the key is at offset 1, the nonce at 17, `n` at 21 (R49). -/
theorem decode_ksg_packet (hl : p.length = 25) (hop : p[0]? = some opKsg) :
    decode p = .ksg (slice p 1 16 (by omega)) (unLe32 (slice p 17 4 (by omega)))
      (unLe32 (slice p 21 4 (by omega))) := by
  rw [decode_of_opcode hop, if_neg (by decide), if_pos rfl, decodeKsg, dif_pos hl]

/-- C-ENC: the members of the SensorFrame are at offsets 1, 2, 6, 10, 14 and 18 (R50). -/
theorem decode_enc_packet (hl : p.length = 20) (hop : p[0]? = some opEnc) :
    decode p =
      .enc { nodeId     := byteAt p 1 (by omega)
             txSeq      := unLe32 (slice p 2 4 (by omega))
             x          := slice p 6 4 (by omega)
             y          := slice p 10 4 (by omega)
             z          := slice p 14 4 (by omega)
             tempTenths := slice p 18 2 (by omega) } := by
  rw [decode_of_opcode hop, if_neg (by decide), if_neg (by decide), if_pos rfl, decodeEnc, dif_pos hl]

/-- C-DEC: the data is everything after the `len` byte, which counts it (R51). -/
theorem decode_dec_packet {len : Byte} (hop : p[0]? = some opDec) (hlen : p[1]? = some len)
    (hl : p.length = 2 + len.toNat) : decode p = .dec (p.drop 2) := by
  have h2 : 2 ≤ p.length := by omega
  have hbyte : byteAt p 1 (by omega) = len := Option.some.inj ((getElem?_eq_byteAt _).symm.trans hlen)
  rw [decode_of_opcode hop, if_neg (by decide), if_neg (by decide), if_neg (by decide), if_pos rfl,
    decodeDec, dif_pos h2, hbyte, if_pos hl]

end DecodeByOpcode

/-- Settles O3: byte 0 selects the format, and each format's operands are the slices at its offsets. -/
theorem decodeFollowsTheFormats : Obligations.DecodeFollowsTheFormats := by
  intro p
  refine ⟨fun hl hop => ?kdf, fun hl hop => ?ksg, fun hl hop => ?enc,
    fun _ hop hlen hl => decode_dec_packet hop hlen hl⟩
  case kdf => exact ⟨_, getElem?_eq_byteAt _, decode_kdf_packet hl hop⟩
  case ksg =>
    exact ⟨_, _, _, decode_ksg_packet hl hop, slice_toList p 1 16 (by omega),
      unLe32_slice_toNat p 17 (by omega), unLe32_slice_toNat p 21 (by omega)⟩
  case enc =>
    exact ⟨_, decode_enc_packet hl hop, getElem?_eq_byteAt _, unLe32_slice_toNat p 2 (by omega),
      slice_toList p 6 4 (by omega), slice_toList p 10 4 (by omega), slice_toList p 14 4 (by omega),
      slice_toList p 18 2 (by omega)⟩

/-- A command that succeeds, whole: its SEQT, and one response of `OK` and its result bytes (R52). -/
theorem exec_of_ok {i : Instr} {s : State} {m : Memory} {result : Packet}
    (h : transact Config.block i s.seqt = { seqt := m, result := .ok result }) :
    exec i s = .next (s.answered m (okCode :: result)) := by
  rw [exec_eq, h, responsePacket]

/-- Settles O20: KDF always succeeds with the two subkeys and keeps SEQT. -/
theorem kdfAnswersBothSubkeys : Obligations.KdfAnswersBothSubkeys :=
  fun id s => exec_of_ok (show transact Config.block (.kdf id) s.seqt = kdfCommand Config.block id s.seqt from rfl)

theorem keystreamBlocks_succ (c : Params) (k : Key) (nonce : U32) (nb : Nat) :
    keystreamBlocks c k nonce (nb + 1) = keystreamBlocks c k nonce nb ++ (keystreamBlock c k nonce nb).toList := by
  simp [keystreamBlocks, List.range_succ]

/-- Byte `j` of the first `nb` keystream blocks is byte `j mod 8` of block `j div 8`. -/
theorem keystreamBlocks_getElem? (c : Params) (k : Key) (nonce : U32) {nb j : Nat} (hj : j < 8 * nb) :
    (keystreamBlocks c k nonce nb)[j]? = (keystreamBlock c k nonce (j / 8)).toList[j % 8]? := by
  induction nb with
  | zero => omega
  | succ nb ih =>
    rw [keystreamBlocks_succ]
    by_cases hlast : j < 8 * nb
    · rw [List.getElem?_append_left (by rwa [keystreamBlocks_length]), ih hlast]
    · have hdiv : j / 8 = nb := by omega
      have hmod : j - 8 * nb = j % 8 := by omega
      rw [List.getElem?_append_right (by rw [keystreamBlocks_length]; omega), keystreamBlocks_length, hdiv, hmod]

/-- Byte `j` of a keystream is byte `j mod 8` of block `j div 8`, the last block cut short or not (R87, R88). -/
theorem ksg_getElem? (c : Params) (k : Key) (nonce : U32) {n j : Nat} (hj : j < n) :
    (ksg c k nonce n).toList[j]? = (keystreamBlock c k nonce (j / 8)).toList[j % 8]? := by
  have hblocks : j < 8 * blockCount n := by
    rw [blockCount]
    omega
  rw [ksg, bytesOfList_toList, List.getElem?_take_of_lt hj, keystreamBlocks_getElem? c k nonce hblocks]

/-- Settles O23: KSG always succeeds with the keystream and keeps SEQT; `ksg_getElem?` gives each byte. -/
theorem ksgAnswersTheKeystream : Obligations.KsgAnswersTheKeystream := by
  intro key nonce n s
  have hcommand : transact Config.block (.ksg key nonce n) s.seqt = ksgCommand Config.block key nonce n s.seqt := rfl
  exact ⟨_, exec_of_ok hcommand, Vector.length_toList, fun _ hj => ksg_getElem? Config.block key nonce hj⟩

end Sys2Proof.Proofs
end

section
/-!
PROOFS. The laws of XOR on byte strings, each read off the byte at one index (40_primitives.md R71).
-/

namespace Sys2Proof.Proofs

open Machine Laws

@[simp] theorem bytesOfList_getElem {n : Nat} (s : Packet) (hlen : s.length = n) {i : Nat} (h : i < n) :
    (bytesOfList s hlen)[i] = s[i]'(hlen.symm ▸ h) := rfl

@[simp] theorem xorBytes_getElem {n : Nat} (a b : Bytes n) {i : Nat} (h : i < n) :
    (xorBytes a b)[i] = a[i] ^^^ b[i] := by
  rw [xorBytes, bytesOfList_getElem, List.getElem_zipWith, Vector.getElem_toList, Vector.getElem_toList]

theorem xorBytes_comm {n : Nat} (a b : Bytes n) : xorBytes a b = xorBytes b a := by
  ext i h : 1
  rw [xorBytes_getElem, xorBytes_getElem, BitVec.xor_comm]

theorem xorBytes_assoc {n : Nat} (a b c : Bytes n) :
    xorBytes (xorBytes a b) c = xorBytes a (xorBytes b c) := by
  ext i h : 1
  simp only [xorBytes_getElem, BitVec.xor_assoc]

theorem xorBytes_xorBytes_cancel_right {n : Nat} (a b : Bytes n) : xorBytes (xorBytes a b) b = a := by
  ext i h : 1
  rw [xorBytes_getElem, xorBytes_getElem, BitVec.xor_assoc, BitVec.xor_self, BitVec.xor_zero]

/-- Settles O16: each law of XOR on byte strings is the law on the bytes at one index. -/
theorem xorLaws : Obligations.XorLaws :=
  fun _ a b c => ⟨fun _ h => xorBytes_getElem a b h, xorBytes_comm a b, xorBytes_assoc a b c,
    xorBytes_xorBytes_cancel_right a b⟩

end Sys2Proof.Proofs
end

section
/-!
PROOFS. The keystream as a function, without the command: its length, and each byte as a byte of one hash output
(42_keystream.md R87).
-/

namespace Sys2Proof.Proofs

open Machine

/-- A keystream block is one invocation of `H`, on the byte `53`, the nonce and the block index (R45, R87). -/
theorem keystreamBlock_eq_hash (c : Params) (k : Key) (nonce : U32) (b : Nat) :
    keystreamBlock c k nonce b =
      c.hash k (0x53 :: ((le32 nonce).toList ++ (le32 (BitVec.ofNat 32 b)).toList)) := rfl

/-- Settles O22: the type of `ksg` fixes the length, and `ksg_getElem?` finds byte `j` in block `j div 8`, which is one
invocation of `H`. -/
theorem keystreamBytes : Obligations.KeystreamBytes := by
  intro c k nonce n
  refine ⟨Vector.length_toList, fun j hj => ?_⟩
  rw [ksg_getElem? c k nonce hj, keystreamBlock_eq_hash]

end Sys2Proof.Proofs
end

section
/-!
PROOFS. DEC step by step (43_frame_codec.md R98 to R108): the length check, the tag check, the replay check, the table
write, and the validation of the decrypted payload. An accepted frame has one meaning, `exec_dec_accepted`, in which
only what `validateFrame` answers is open; each status after the table write is one answer of it.
-/

namespace Sys2Proof.Proofs

open Machine Laws

section Length

/-- A slice that ends before the cut is the slice of the uncut bytes. -/
theorem slice_take {p : Packet} {k off n : Nat} (h : off + n ≤ (p.take k).length) :
    slice (p.take k) off n h = slice p off n (h.trans (List.length_take_le' k p)) := by
  have hk : off + n ≤ k := h.trans (List.length_take_le k p)
  apply bytes_ext
  rw [slice_toList, slice_toList, List.drop_take, List.take_take, Nat.min_eq_left (by omega)]

theorem byteAt_take {p : Packet} {k i : Nat} (h : i < (p.take k).length) :
    byteAt (p.take k) i h = byteAt p i (h.trans_le (List.length_take_le' k p)) :=
  List.getElem_take

/-- The frame in received data is the frame in its first 28 bytes (R100, R101). -/
theorem frameOfData_take {data : Packet} (h : 28 ≤ data.length) :
    frameOfData (data.take 28) = frameOfData data := by
  have hcut : 28 ≤ (data.take 28).length := by rw [List.length_take]; omega
  simp only [frameOfData, dif_pos h, dif_pos hcut, byteAt_take, slice_take]

theorem expectedTag_take (c : Params) (data : Packet) (f : SecureFrame) :
    expectedTag c (data.take 28) f = expectedTag c data f := by
  rw [expectedTag, expectedTag, List.take_take]
  rfl

/-- Bytes of received data after the first 28 reach neither the frame nor its tagged message (R100). -/
theorem transact_dec_take (c : Params) {data : Packet} (m : Memory) (h : 28 ≤ data.length) :
    transact c (.dec (data.take 28)) m = transact c (.dec data) m := by
  simp only [transact, decCommand, decodeFrame, frameOfData_take h, expectedTag_take]

/-- DEC of data too short for a frame, whole (R100). -/
theorem transact_dec_short (c : Params) {data : Packet} (m : Memory) (h : data.length < 28) :
    transact c (.dec data) m = { seqt := m, result := .error .short } := by
  simp [transact, decCommand, decodeFrame, frameOfData_short h, Except.map]

/-- DEC of data too short for a frame invokes no hash (R100). -/
theorem hashCalls_dec_short (c : Params) {data : Packet} (m : Memory) (h : data.length < 28) :
    hashCalls c (.dec data) m = [] := by
  rw [hashCalls, decCalls, frameOfData_short h]

end Length

/-- A command that fails, whole: its SEQT, and one response of the status byte alone (R57). -/
theorem exec_of_error {i : Instr} {s : State} {m : Memory} {e : ErrorStatus}
    (h : transact Config.block i s.seqt = { seqt := m, result := .error e }) :
    exec i s = .next (s.answered m [errorCode e]) := by
  rw [exec_eq, h, responsePacket]

/-- Settles O31: without 28 bytes there is no frame, and of longer data the frame and the tagged message are read from
the first 28 bytes. -/
theorem decChecksTheLengthFirst : Obligations.DecChecksTheLengthFirst := by
  refine ⟨fun data s hshort => ⟨?_, hashCalls_dec_short _ _ hshort⟩, fun data s hlong => ?_⟩
  · exact exec_of_error (transact_dec_short _ _ hshort)
  · rw [exec_eq, exec_eq, transact_dec_take _ _ hlong]

section Validation

variable {c : Params} {f : SecureFrame}

theorem nodeIdInvalid_iff {nodeId : Byte} :
    nodeIdInvalid c nodeId = true ↔ nodeId.toNat = 0 ∨ c.maxNodes < nodeId.toNat := by
  simp [nodeIdInvalid]

/-- The members of an unpacked payload after the message type, joined again, are its bytes after the first (R75). -/
theorem unpack_fields_toList (pt : Payload) :
    (unpack pt).x.toList ++ ((unpack pt).y.toList ++ ((unpack pt).z.toList ++ (unpack pt).tempTenths.toList)) =
      pt.toList.drop 1 := by
  have hsplit (n k : Nat) :
      (pt.toList.drop n).take k ++ pt.toList.drop (n + k) = pt.toList.drop n := by
    rw [← List.drop_drop, List.take_append_drop]
  have htemp : (pt.toList.drop 13).take 2 = pt.toList.drop 13 := List.take_of_length_le (by simp)
  simp only [unpack, slice_toList, htemp]
  rw [hsplit 9 4, hsplit 5 4, hsplit 1 4]

/-- The plaintext of a frame is what decryption unpacks (R105). -/
theorem plaintextOf_eq (c : Params) (f : SecureFrame) :
    plaintextOf c f = (xorBytes f.ciphertext (ksg c (kdf c f.nodeId).enc f.txSeq 15)).toList :=
  (xorBytes_toList _ _).symm

/-- The message type that is checked is the plaintext's first byte (R105, R106). -/
theorem plaintextOf_head (c : Params) (f : SecureFrame) :
    (plaintextOf c f)[0]? = some (decryptFrame c f).msgType := by
  rw [plaintextOf_eq, List.getElem?_eq_getElem (by simp), Vector.getElem_toList]
  rfl

theorem plaintextOf_head_eq_iff {b : Byte} :
    (plaintextOf c f)[0]? = some b ↔ (decryptFrame c f).msgType = b := by
  rw [plaintextOf_head, Option.some.injEq]

/-- The first check of an accepted frame: its message type (R106). -/
theorem validateFrame_of_wrong_type (htype : (plaintextOf c f)[0]? ≠ some c.msgType) :
    validateFrame c f = .error .msgType := by
  rw [Ne, plaintextOf_head_eq_iff] at htype
  rw [validateFrame, if_pos htype]

/-- The second check of an accepted frame: its node id (R107). -/
theorem validateFrame_of_invalid_id (htype : (plaintextOf c f)[0]? = some c.msgType)
    (hid : f.nodeId.toNat = 0 ∨ c.maxNodes < f.nodeId.toNat) : validateFrame c f = .error .nodeId := by
  rw [plaintextOf_head_eq_iff] at htype
  rw [validateFrame, if_neg (not_not.mpr htype), if_pos (nodeIdInvalid_iff.mpr hid)]

/-- The result of an accepted frame that passes both checks: node id and sequence number as received, then the plaintext
after the message type (R56, R108). -/
theorem validateFrame_of_valid (htype : (plaintextOf c f)[0]? = some c.msgType) (hid : NodeIdValid c f.nodeId) :
    (validateFrame c f).map sensorFrameBytes =
      .ok (f.nodeId :: ((le32 f.txSeq).toList ++ (plaintextOf c f).drop 1)) := by
  rw [plaintextOf_head_eq_iff] at htype
  have hid : ¬ nodeIdInvalid c f.nodeId = true := Bool.eq_false_iff.mp ((nodeIdInvalid_eq_false_iff _ _).mpr hid)
  rw [validateFrame, if_neg (not_not.mpr htype), if_neg hid, plaintextOf_eq, ← unpack_fields_toList]
  rfl

end Validation

section Accepted

variable {data : Packet} {f : SecureFrame} {s : State} {m : Memory}

/-- A number is fresh exactly when the replay test `v = 1 and seq <=u last` fails (R103). -/
theorem fresh_iff {id : Byte} {q : U32} :
    Fresh m id q ↔ (memRead m id).valid = false ∨ (memRead m id).last.toNat < q.toNat := by
  rw [Fresh, ← Bool.not_eq_true, imp_iff_not_or]

variable (hf : frameOfData data = some f) (ht : TagPasses Config.block data f) (hr : Fresh s.seqt f.nodeId f.txSeq)

include hf ht hr

/-- DEC of an authentic, fresh frame: the table write, and the response to what validation answers (R104 to R108). -/
theorem exec_dec_accepted :
    exec (.dec data) s = .next (s.answered (acceptSeq s.seqt f)
      (responsePacket ⟨acceptSeq s.seqt f, (validateFrame Config.block f).map sensorFrameBytes⟩)) := by
  rw [exec_eq, transact_dec_accepted hf ht hr]

/-- An accepted frame that fails validation is answered its status byte; the table write stays (R104, R113). -/
theorem exec_dec_accepted_error {e : ErrorStatus} (hv : validateFrame Config.block f = .error e) :
    exec (.dec data) s = .next (s.answered (acceptSeq s.seqt f) [errorCode e]) := by
  rw [exec_dec_accepted hf ht hr, hv]
  rfl

/-- An accepted frame that passes validation is answered `OK` and its result (R108). -/
theorem exec_dec_accepted_ok {result : Packet}
    (hv : (validateFrame Config.block f).map sensorFrameBytes = .ok result) :
    exec (.dec data) s = .next (s.answered (acceptSeq s.seqt f) (okCode :: result)) := by
  rw [exec_dec_accepted hf ht hr, hv]
  rfl

/-- The status of an accepted frame is `OK`, `ERR_MSG_TYPE` or `ERR_NODE_ID` (R106 to R108). -/
theorem exec_dec_accepted_status :
    ∃ (code : Byte) (rest : Packet), exec (.dec data) s = .next (s.answered (acceptSeq s.seqt f) (code :: rest)) ∧
      code ∈ [okCode, errorCode .msgType, errorCode .nodeId] := by
  obtain ⟨-, hv⟩ | ⟨-, -, hv⟩ | ⟨-, -, hv⟩ := validateFrame_cases Config.block f
  · exact ⟨_, _, exec_dec_accepted_error hf ht hr hv, by simp⟩
  · exact ⟨_, _, exec_dec_accepted_error hf ht hr hv, by simp⟩
  · exact ⟨_, _, exec_dec_accepted_ok hf ht hr (by rw [hv]; rfl), by simp⟩

end Accepted

/-- Settles O33: the three ways past the length check are a forged, a replayed and an accepted frame, and validation of
an accepted one answers neither status of the first two. -/
theorem decReplayCheck : Obligations.DecReplayCheck := by
  intro data f s hf
  refine ⟨fun hforged => ?_, fun ht hvalid hle => ?_, fun ht hnew => ?_⟩
  · exact exec_of_error (transact_dec_forged hf hforged)
  · have hstale : ¬ Fresh s.seqt f.nodeId f.txSeq := fun hr => absurd (hr hvalid) (Nat.not_lt.mpr hle)
    exact exec_of_error (transact_dec_replayed hf ht hstale)
  · obtain ⟨code, rest, hexec, hcode⟩ := exec_dec_accepted_status hf ht (fresh_iff.mpr hnew)
    refine ⟨_, code, rest, hexec, ?_, ?_, ?_⟩
    · rintro rfl
      exact absurd hcode (by decide)
    · rintro rfl
      exact absurd hcode (by decide)
    · rw [memRead_acceptSeq, if_pos rfl]

/-- Settles O34: the table write comes before validation, and what validation answers is only the response. -/
theorem decRecordsTheSequenceNumber : Obligations.DecRecordsTheSequenceNumber :=
  fun _ f s hf ht hr => ⟨_, _, exec_dec_accepted hf ht hr, memRead_acceptSeq s.seqt f⟩

/-- Settles O35: the plaintext's first byte is what validation compares with `MSG_TYPE`. -/
theorem decRejectsWrongMessageType : Obligations.DecRejectsWrongMessageType :=
  fun _ f s hf ht hr htype =>
    ⟨_, exec_dec_accepted_error hf ht hr (validateFrame_of_wrong_type htype), memRead_acceptSeq s.seqt f⟩

/-- Settles O36: the message type passes, so that validation comes to the range test of the node id. -/
theorem decRejectsInvalidNodeId : Obligations.DecRejectsInvalidNodeId :=
  fun _ f s hf ht hr htype hid =>
    ⟨_, exec_dec_accepted_error hf ht hr (validateFrame_of_invalid_id htype hid), memRead_acceptSeq s.seqt f⟩

/-- Settles O37: both checks of validation pass, and the members of its result are the plaintext's bytes again. -/
theorem decAnswersTheSensorFrame : Obligations.DecAnswersTheSensorFrame :=
  fun _ f s hf ht hr htype hid =>
    ⟨_, exec_dec_accepted_ok hf ht hr (validateFrame_of_valid htype hid), memRead_acceptSeq s.seqt f⟩

end Sys2Proof.Proofs
end

section
/-!
PROOFS. The errors (60_exceptions.md): which one is reported when several causes apply (R121), which of them leave the
state as it was (R122), and what a wrong tag keeps from being computed (R117).
-/

namespace Sys2Proof.Proofs

open Machine Laws

section WrongTag

variable {c : Params} {data : Packet} {f : SecureFrame}

/-- DEC of a frame whose tag does not verify generates no keystream (R98 steps 4 and 5, R117). -/
theorem hashCalls_dec_forged (m : Memory) (hf : frameOfData data = some f) (ht : ¬ TagPasses c data f) :
    hashCalls c (.dec data) m = kdfCalls c f.nodeId ++ [((kdf c f.nodeId).mac, data.take 20)] := by
  have hcheck : (!tagsEqual (expectedTag c data f) f.tag) = true := by
    simpa [tagsEqual, tagPasses_iff] using ht
  simp only [hashCalls, decCalls, hf, if_pos hcheck]

/-- Settles O32: DEC stops at the tag check, before the table write and before the keystream. -/
theorem decRejectsWrongTag : Obligations.DecRejectsWrongTag :=
  fun _ _ s hf ht => ⟨exec_of_error (transact_dec_forged hf ht), hashCalls_dec_forged s.seqt hf ht⟩

end WrongTag

section NoCommand

/-- A packet that is no command decodes to RESERVED carrying itself (R59, R60). -/
theorem decode_of_notACommand {p : Packet} (h : NotACommand p) : decode p = .reserved p := by
  obtain rfl | ⟨op, hop, hkdf, hksg, henc, hdec⟩ | ⟨hop, hl⟩ | ⟨hop, hl⟩ | ⟨hop, hl⟩ | ⟨hop, hl⟩ := h
  case inl => rfl
  case inr.inl =>
    exact (decode_of_opcode hop).trans
      ((if_neg hkdf).trans ((if_neg hksg).trans ((if_neg henc).trans (if_neg hdec))))
  case inr.inr.inl =>
    rw [decode_of_opcode hop, if_pos (by decide), decodeKdf, dif_neg hl]
  case inr.inr.inr.inl =>
    rw [decode_of_opcode hop, if_neg (by decide), if_pos (by decide), decodeKsg, dif_neg hl]
  case inr.inr.inr.inr.inl =>
    rw [decode_of_opcode hop, if_neg (by decide), if_neg (by decide), if_pos (by decide), decodeEnc, dif_neg hl]
  case inr.inr.inr.inr.inr =>
    rw [decode_of_opcode hop, if_neg (by decide), if_neg (by decide), if_neg (by decide), if_pos (by decide), decodeDec]
    split
    · rw [if_neg fun hlen => hl ⟨_, getElem?_eq_byteAt _, hlen⟩]
    · rfl

/-- RESERVED is answered `ERR_CMD`, whatever the packet (R120). -/
theorem exec_reserved (p : Packet) (s : State) : exec (.reserved p) s = .next (s.answered s.seqt [errorCode .cmd]) :=
  exec_of_error rfl

end NoCommand

section Enc

variable {c : Params} {f : SensorFrame}

theorem not_nodeIdValid_iff {nodeId : Byte} :
    ¬ NodeIdValid c nodeId ↔ nodeId.toNat = 0 ∨ c.maxNodes < nodeId.toNat := by
  rw [NodeIdValid]
  omega

/-- ENC of an invalid node id, whole (R95 step 1, R119). -/
theorem transact_enc_invalid (m : Memory) (hid : ¬ NodeIdValid c f.nodeId) :
    transact c (.enc f) m = { seqt := m, result := .error .nodeId } := by
  have hid := nodeIdInvalid_iff.mpr (not_nodeIdValid_iff.mp hid)
  rw [transact, encCommand, encodeFrame, if_pos hid]
  rfl

/-- ENC of a valid node id succeeds: the range check is its only one (R95). -/
theorem transact_enc_valid (m : Memory) (hid : NodeIdValid c f.nodeId) :
    ∃ frame, transact c (.enc f) m = { seqt := m, result := .ok frame } := by
  have hid : ¬ nodeIdInvalid c f.nodeId = true := Bool.eq_false_iff.mp ((nodeIdInvalid_eq_false_iff _ _).mpr hid)
  rw [transact, encCommand, encodeFrame, if_neg hid]
  exact ⟨_, rfl⟩

end Enc

section Priority

variable {i : Instr} {s : State}

/-- Every response begins with a status byte (R52, R57). -/
theorem exec_status (i : Instr) (s : State) :
    ∃ (m : Memory) (code : Byte) (rest : Packet), exec i s = .next (s.answered m (code :: rest)) := by
  match hr : (transact Config.block i s.seqt).result with
  | .ok result => exact ⟨_, _, _, exec_of_ok (congrArg (Reply.mk _) hr)⟩
  | .error e => exact ⟨_, _, _, exec_of_error (congrArg (Reply.mk _) hr)⟩

/-- The status is determined by the command and the state. -/
theorem exec_status_unique {m₁ m₂ : Memory} {code₁ code₂ : Byte} {rest₁ rest₂ : Packet}
    (h₁ : exec i s = .next (s.answered m₁ (code₁ :: rest₁))) (h₂ : exec i s = .next (s.answered m₂ (code₂ :: rest₂))) :
    code₁ = code₂ := by
  have h := h₁.symm.trans h₂
  simp only [State.answered, Host.Outcome.next.injEq, State.mk.injEq, List.append_cancel_left_eq, List.cons.injEq] at h
  obtain ⟨-, -, ⟨hcode, -⟩, -⟩ := h
  exact hcode

/-- Settles O38: a status is unique, so that each clause only needs the meaning of the command under its own
conditions. -/
theorem firstApplicableErrorIsReported : Obligations.FirstApplicableErrorIsReported := by
  intro p s
  obtain ⟨m, code, rest, h⟩ := exec_status (decode p) s
  refine ⟨m, code, rest, h, fun hno => ?cmd, fun _ =>
    ⟨fun id hi => ?kdf, fun key nonce n hi => ?ksg, fun f hi => ?enc, fun data hi => ?dec⟩⟩
  case cmd =>
    rw [decode_of_notACommand hno] at h
    exact exec_status_unique h (exec_reserved p s)
  all_goals rw [hi] at h
  case kdf => exact exec_status_unique h (kdfAnswersBothSubkeys id s)
  case ksg => exact exec_status_unique h (exec_of_ok (show transact _ _ _ = ksgCommand _ key nonce n s.seqt from rfl))
  case enc =>
    refine ⟨fun hid => exec_status_unique h (exec_of_error (transact_enc_invalid _ hid)), fun hid => ?_⟩
    obtain ⟨frame, hframe⟩ := transact_enc_valid s.seqt hid
    exact exec_status_unique h (exec_of_ok hframe)
  case dec =>
    refine ⟨fun hshort => exec_status_unique h (exec_of_error (transact_dec_short _ _ hshort)), fun f hf =>
      ⟨fun ht => exec_status_unique h (exec_of_error (transact_dec_forged hf ht)),
        fun ht hr => exec_status_unique h (exec_of_error (transact_dec_replayed hf ht hr)),
        fun ht hr htype => ?_, fun ht hr htype => ⟨fun hid => ?_, fun hid => ?_⟩⟩⟩
    · exact exec_status_unique h (exec_dec_accepted_error hf ht hr (validateFrame_of_wrong_type htype))
    · exact exec_status_unique h
        (exec_dec_accepted_error hf ht hr (validateFrame_of_invalid_id htype (not_nodeIdValid_iff.mp hid)))
    · exact exec_status_unique h (exec_dec_accepted_ok hf ht hr (validateFrame_of_valid htype hid))

end Priority

section State

/-- A one-byte response other than `OK` comes from an error (R52, R57). -/
theorem result_of_errorPacket {r : Reply} {code : Byte} (h : responsePacket r = [code]) (hok : code ≠ okCode) :
    ∃ e, r.result = .error e ∧ errorCode e = code := by
  rw [responsePacket] at h
  split at h
  next => exact absurd (List.head_eq_of_cons_eq h).symm hok
  next e he => exact ⟨e, he, List.head_eq_of_cons_eq h⟩

/-- An accepted sequence number is not the one the table held: were it, it would not be fresh (R103). -/
theorem memRead_ne_of_fresh {m : Memory} {id : Byte} {q : U32} (hr : Fresh m id q) :
    memRead m id ≠ { valid := true, last := q } := by
  intro hread
  rw [Fresh, hread] at hr
  exact absurd (hr rfl) (Nat.lt_irrefl _)

variable {c : Params} {data : Packet} {m : Memory} {e : ErrorStatus}

/-- The two ways for DEC to fail: before the table write, or in the validation of an accepted frame, with the write kept
(R98, R113). -/
theorem transact_dec_error_cases (h : (transact c (.dec data) m).result = .error e) :
    ((transact c (.dec data) m).seqt = m ∧ e ∉ [.msgType, .nodeId]) ∨
    (∃ f, frameOfData data = some f ∧ Fresh m f.nodeId f.txSeq ∧
      (transact c (.dec data) m).seqt = acceptSeq m f ∧ e ∈ [.msgType, .nodeId]) := by
  match hf : frameOfData data with
  | none =>
    have hshort : data.length < 28 := by simpa [hf] using frameOfData_isSome data
    rw [transact_dec_short c m hshort] at h ⊢
    cases h
    exact .inl ⟨rfl, by decide⟩
  | some f =>
    by_cases ht : TagPasses c data f
    · by_cases hr : Fresh m f.nodeId f.txSeq
      · rw [transact_dec_accepted hf ht hr] at h ⊢
        refine .inr ⟨f, rfl, hr, rfl, ?_⟩
        obtain ⟨-, hv⟩ | ⟨-, -, hv⟩ | ⟨-, -, hv⟩ := validateFrame_cases c f <;> (rw [hv] at h; cases h)
        · decide
        · decide
      · rw [transact_dec_replayed hf ht hr] at h ⊢
        cases h
        exact .inl ⟨rfl, by decide⟩
    · rw [transact_dec_forged hf ht] at h ⊢
      cases h
      exact .inl ⟨rfl, by decide⟩

/-- An error other than `ERR_MSG_TYPE` and `ERR_NODE_ID` leaves SEQT as it was, whatever the command (R122). -/
theorem transact_seqt_of_error {i : Instr} (h : (transact c i m).result = .error e) (he : e ∉ [.msgType, .nodeId]) :
    (transact c i m).seqt = m := by
  cases i with
  | dec data =>
    obtain ⟨hseqt, -⟩ | ⟨_, -, -, -, hlate⟩ := transact_dec_error_cases h
    · exact hseqt
    · exact absurd hlate he
  | _ => exact transact_seqt_of_not_dec c m nofun

/-- After DEC's `ERR_MSG_TYPE` or `ERR_NODE_ID` the frame's entry holds the frame's number, which it did not before, and
every other entry is as it was (R122). -/
theorem transact_dec_validation_error (h : (transact c (.dec data) m).result = .error e)
    (he : e ∈ [.msgType, .nodeId]) :
    ∃ f, frameOfData data = some f ∧
      memRead (transact c (.dec data) m).seqt f.nodeId = { valid := true, last := f.txSeq } ∧
      memRead (transact c (.dec data) m).seqt f.nodeId ≠ memRead m f.nodeId ∧
      ∀ j : Byte, j ≠ f.nodeId → memRead (transact c (.dec data) m).seqt j = memRead m j := by
  obtain ⟨-, hearly⟩ | ⟨f, hf, hr, hseqt, -⟩ := transact_dec_error_cases h
  · exact absurd he hearly
  · have hentry : memRead (acceptSeq m f) f.nodeId = { valid := true, last := f.txSeq } := by
      rw [memRead_acceptSeq, if_pos rfl]
    rw [hseqt]
    refine ⟨f, hf, hentry, ?_, fun j hj => ?_⟩
    · rw [hentry]
      exact (memRead_ne_of_fresh hr).symm
    · rw [memRead_acceptSeq, if_neg hj]

/-- Settles O39: the status byte tells the error, and the error tells whether DEC had come to the table write. -/
theorem errorsAndState : Obligations.ErrorsAndState := by
  intro i s t code hexec hresponse
  rw [exec_eq, Host.Outcome.next.injEq] at hexec
  subst hexec
  rw [answered_responses, List.append_cancel_left_eq, List.singleton_inj] at hresponse
  rw [answered_seqt]
  refine ⟨fun hcode => ?early, ?enc, ?late⟩
  case early =>
    obtain ⟨e, he, rfl⟩ := result_of_errorPacket hresponse (by rintro rfl; exact absurd hcode (by decide))
    exact transact_seqt_of_error he (by revert hcode; cases e <;> decide)
  case enc =>
    rintro f rfl -
    exact transact_seqt_of_not_dec _ _ nofun
  case late =>
    rintro data rfl hcode
    obtain ⟨e, he, rfl⟩ := result_of_errorPacket hresponse (by rintro rfl; exact absurd hcode (by decide))
    exact transact_dec_validation_error he (by revert hcode; cases e <;> decide)

end State

end Sys2Proof.Proofs
end

section
/-!
PROOFS. Integers and their bytes: little-endian conversion loses nothing (40_primitives.md R70), and the signed fields
are read in two's complement (R73).
-/

namespace Sys2Proof.Proofs

open Machine Laws

@[simp] theorem unLe32_le32 (v : U32) : unLe32 (le32 v) = v := by
  apply BitVec.eq_of_toNat_eq
  have hv := v.isLt
  simp only [unLe32, le32, BitVec.toNat_ofNat, Vector.getElem_mk, List.getElem_toArray, List.getElem_cons_zero,
    List.getElem_cons_succ]
  omega

@[simp] theorem unLe16_le16 (v : U16) : unLe16 (le16 v) = v := by
  apply BitVec.eq_of_toNat_eq
  have hv := v.isLt
  simp only [unLe16, le16, BitVec.toNat_ofNat, Vector.getElem_mk, List.getElem_toArray, List.getElem_cons_zero,
    List.getElem_cons_succ]
  omega

theorem le32_toList (v : U32) :
    (le32 v).toList = [BitVec.ofNat 8 (v.toNat % 256), BitVec.ofNat 8 (v.toNat / 2 ^ 8 % 256),
      BitVec.ofNat 8 (v.toNat / 2 ^ 16 % 256), BitVec.ofNat 8 (v.toNat / 2 ^ 24 % 256)] := rfl

theorem le16_toList (v : U16) :
    (le16 v).toList = [BitVec.ofNat 8 (v.toNat % 256), BitVec.ofNat 8 (v.toNat / 256)] := rfl

/-- A byte is determined by its unsigned value. -/
theorem ofNat_eq_byte {b : Byte} {n : Nat} (h : n % 256 = b.toNat) : BitVec.ofNat 8 n = b :=
  BitVec.eq_of_toNat_eq h

@[simp] theorem le32_unLe32 (s : Bytes 4) : le32 (unLe32 s) = s := by
  apply bytes_ext
  have h0 := s[0].isLt
  have h1 := s[1].isLt
  have h2 := s[2].isLt
  have h3 := s[3].isLt
  rw [le32_toList, unLe32_toNat, toList_four s]
  simp only [numberOfBytes, List.cons.injEq, and_true]
  refine ⟨ofNat_eq_byte ?_, ofNat_eq_byte ?_, ofNat_eq_byte ?_, ofNat_eq_byte ?_⟩ <;> omega

/-- The little-endian reading of a 2-byte field as a 16-bit integer wraps nothing (R8, R29). -/
theorem unLe16_toNat (s : Bytes 2) : (unLe16 s).toNat = numberOfBytes s.toList := by
  have h0 := s[0].isLt
  have h1 := s[1].isLt
  rw [toList_two, unLe16, BitVec.toNat_ofNat]
  simp only [numberOfBytes]
  omega

@[simp] theorem le16_unLe16 (s : Bytes 2) : le16 (unLe16 s) = s := by
  apply bytes_ext
  have h0 := s[0].isLt
  have h1 := s[1].isLt
  rw [le16_toList, unLe16_toNat, toList_two s]
  simp only [numberOfBytes, List.cons.injEq, and_true]
  refine ⟨ofNat_eq_byte ?_, ofNat_eq_byte ?_⟩ <;> omega

/-- Settles O15: each composition compares unsigned values, and the examples evaluate. -/
theorem littleEndianInverse : Obligations.LittleEndianInverse :=
  ⟨unLe32_le32, le32_unLe32, unLe16_le16, le16_unLe16, rfl, rfl, rfl, rfl, rfl⟩

/-- The two's-complement reading of a pattern's unsigned value is its signed value (R73). -/
theorem twosComplement_toNat {n : Nat} (v : BitVec (n + 1)) : twosComplement (n + 1) v.toNat = v.toInt := by
  rw [twosComplement, BitVec.toInt_eq_toNat_cond, Nat.add_sub_cancel, Nat.pow_succ]
  congr 1
  exact propext (by omega)

theorem readI32_writeI32 {v : Int} (hlow : -2147483648 ≤ v) (hhigh : v ≤ 2147483647) : readI32 (writeI32 v) = v := by
  rw [readI32, writeI32, unLe32_le32, twosComplement_toNat]
  exact BitVec.toInt_ofInt_eq_self (by decide) hlow (by omega)

theorem readI16_writeI16 {v : Int} (hlow : -32768 ≤ v) (hhigh : v ≤ 32767) : readI16 (writeI16 v) = v := by
  rw [readI16, writeI16, unLe16_le16, twosComplement_toNat]
  exact BitVec.toInt_ofInt_eq_self (by decide) hlow (by omega)

/-- Settles O17: a field's bytes are its pattern's (`unLe32_le32`), and the pattern's two's-complement reading is
`BitVec.toInt`. -/
theorem signedFieldsAreTwosComplement : Obligations.SignedFieldsAreTwosComplement := by
  refine ⟨fun _ => readI32_writeI32, fun _ => readI16_writeI16, fun s => ?_, fun s => ?_, rfl, rfl, rfl, rfl, rfl, rfl⟩
  · rw [readI32, unLe32_toNat]
    rfl
  · rw [readI16, unLe16_toNat]
    rfl

end Sys2Proof.Proofs
end

section
/-!
PROOFS. The packet decoder and the encoder are inverse to each other (30_encoding.md R48 to R51, R59 to R61): a packet is
the encoding of a command, or it is no command and decodes to RESERVED carrying itself.
-/

namespace Sys2Proof.Proofs

open Machine Laws

/-- What `wellFormed` asks of RESERVED is what R59 and R60 say of its packet. -/
theorem malformedCause_isSome_iff (p : Packet) : (malformedCause p).isSome = true ↔ NotACommand p := by
  cases p with
  | nil => simp [malformedCause, formatLength, NotACommand]
  | cons op rest =>
    by_cases hkdf : op = opKdf
    · subst hkdf
      simp [malformedCause, formatLength, NotACommand, opKdf]
    by_cases hksg : op = opKsg
    · subst hksg
      simp [malformedCause, formatLength, NotACommand, opKdf, opKsg]
    by_cases henc : op = opEnc
    · subst henc
      simp [malformedCause, formatLength, NotACommand, opKdf, opKsg, opEnc]
    by_cases hdec : op = opDec
    · subst hdec
      cases rest with
      | nil => simp [malformedCause, formatLength, NotACommand, opKdf, opKsg, opEnc, opDec]
      | cons len data => simp [malformedCause, formatLength, NotACommand, opKdf, opKsg, opEnc, opDec]
    have hcause : malformedCause (op :: rest) = some .reservedOpcode := by
      simp [malformedCause, formatLength, hkdf, hksg, henc, hdec]
    rw [hcause]
    exact iff_of_true rfl (.inr (.inl ⟨op, rfl, hkdf, hksg, henc, hdec⟩))

section DecodeOfEncode

theorem decode_encode_ksg (key : Key) (nonce n : U32) : decode (encode (.ksg key nonce n)) = .ksg key nonce n := by
  have hkey : slice (encode (.ksg key nonce n)) 1 16 (by simp [encode]) = key := bytes_ext (by simp [encode])
  have hnonce : slice (encode (.ksg key nonce n)) 17 4 (by simp [encode]) = le32 nonce :=
    bytes_ext (by simp [encode])
  have hn : slice (encode (.ksg key nonce n)) 21 4 (by simp [encode]) = le32 n :=
    bytes_ext (by simp [encode, List.drop_append])
  rw [decode_ksg_packet (by simp [encode]) rfl, hkey, hnonce, hn, unLe32_le32, unLe32_le32]

theorem decode_encode_enc (f : SensorFrame) : decode (encode (.enc f)) = .enc f := by
  have hseq : slice (encode (.enc f)) 2 4 (by simp [encode]) = le32 f.txSeq :=
    bytes_ext (by simp [encode, sensorFrameBytes, header])
  have hx : slice (encode (.enc f)) 6 4 (by simp [encode]) = f.x :=
    bytes_ext (by simp [encode, sensorFrameBytes, header])
  have hy : slice (encode (.enc f)) 10 4 (by simp [encode]) = f.y :=
    bytes_ext (by simp [encode, sensorFrameBytes, header, List.drop_append])
  have hz : slice (encode (.enc f)) 14 4 (by simp [encode]) = f.z :=
    bytes_ext (by simp [encode, sensorFrameBytes, header, List.drop_append])
  have htemp : slice (encode (.enc f)) 18 2 (by simp [encode]) = f.tempTenths :=
    bytes_ext (by simp [encode, sensorFrameBytes, header, List.drop_append])
  rw [decode_enc_packet (by simp [encode]) rfl, hseq, hx, hy, hz, htemp, unLe32_le32]
  rfl

theorem decode_encode_dec {data : Packet} (h : data.length ≤ 255) : decode (encode (.dec data)) = .dec data := by
  have hlen : (BitVec.ofNat 8 data.length).toNat = data.length := by
    rw [BitVec.toNat_ofNat]
    omega
  exact decode_dec_packet rfl rfl (by rw [hlen, encode, List.length_cons, List.length_cons]; omega)

theorem decode_encode {i : Instr} (h : i.wellFormed = true) : decode (encode i) = i := by
  cases i with
  | kdf nodeId => rfl
  | ksg key nonce n => exact decode_encode_ksg key nonce n
  | enc frame => exact decode_encode_enc frame
  | dec data => exact decode_encode_dec (of_decide_eq_true h)
  | reserved packet => exact decode_of_notACommand ((malformedCause_isSome_iff packet).mp h)

/-- Settles O1: `decode_encode`, by the format of each constructor. -/
theorem decodeOfEncodeIsIdentity : Obligations.DecodeOfEncodeIsIdentity := fun _ => decode_encode

end DecodeOfEncode

section EncodeOfDecode

variable {p : Packet}

/-- `i` is a command, and `p` is its packet. -/
def EncodesCommand (p : Packet) (i : Instr) : Prop :=
  i.wellFormed = true ∧ (∀ q, i ≠ .reserved q) ∧ encode i = p

/-- A field and what follows it are the bytes from its offset on. -/
theorem take_drop_append_drop (p : Packet) (off n : Nat) : (p.drop off).take n ++ p.drop (off + n) = p.drop off := by
  rw [← List.drop_drop, List.take_append_drop]

theorem cons_drop_one {op : Byte} (hop : p[0]? = some op) : op :: p.drop 1 = p := by
  cases p with
  | nil => simp at hop
  | cons b rest =>
    obtain rfl : b = op := by simpa using hop
    rfl

/-- The last field of a packet is all that is left of it. -/
theorem take_drop_last {off n : Nat} (hl : p.length = off + n) : (p.drop off).take n = p.drop off :=
  List.take_of_length_le (by rw [List.length_drop]; omega)

theorem encodesCommand_kdf (hl : p.length = 2) (hop : p[0]? = some opKdf) : ∃ i, EncodesCommand p i := by
  match p, hl with
  | [op, id], _ =>
    obtain rfl : op = opKdf := by simpa using hop
    exact ⟨.kdf id, rfl, nofun, rfl⟩

theorem encodesCommand_ksg (hl : p.length = 25) (hop : p[0]? = some opKsg) : ∃ i, EncodesCommand p i := by
  refine ⟨.ksg (slice p 1 16 (by omega)) (unLe32 (slice p 17 4 (by omega))) (unLe32 (slice p 21 4 (by omega))), rfl,
    nofun, ?_⟩
  simp only [encode, le32_unLe32, slice_toList]
  rw [take_drop_last (off := 21) hl, take_drop_append_drop p 17 4, take_drop_append_drop p 1 16, cons_drop_one hop]

theorem encodesCommand_enc (hl : p.length = 20) (hop : p[0]? = some opEnc) : ∃ i, EncodesCommand p i := by
  have hid : byteAt p 1 (by omega) :: p.drop 2 = p.drop 1 := List.getElem_cons_drop (by omega)
  refine ⟨.enc { nodeId := byteAt p 1 (by omega), txSeq := unLe32 (slice p 2 4 (by omega)),
                 x := slice p 6 4 (by omega), y := slice p 10 4 (by omega), z := slice p 14 4 (by omega),
                 tempTenths := slice p 18 2 (by omega) }, rfl, nofun, ?_⟩
  simp only [encode, sensorFrameBytes, header, le32_unLe32, slice_toList, List.cons_append]
  rw [take_drop_last (off := 18) hl, take_drop_append_drop p 14 4, take_drop_append_drop p 10 4,
    take_drop_append_drop p 6 4, take_drop_append_drop p 2 4, hid, cons_drop_one hop]

theorem encodesCommand_dec {len : Byte} (hop : p[0]? = some opDec) (hlen : p[1]? = some len)
    (hl : p.length = 2 + len.toNat) : ∃ i, EncodesCommand p i := by
  match p, hl with
  | op :: len' :: data, hl =>
    obtain rfl : op = opDec := by simpa using hop
    obtain rfl : len' = len := by simpa using hlen
    have hdata : data.length = len'.toNat := by
      rw [List.length_cons, List.length_cons] at hl
      omega
    refine ⟨.dec data, decide_eq_true (by omega), nofun, ?_⟩
    rw [encode, hdata, BitVec.ofNat_toNat, BitVec.setWidth_eq]

/-- Every packet is the packet of a command, unless it is no command (R59 to R61). -/
theorem encodesCommand_of_not_notACommand (h : ¬ NotACommand p) : ∃ i, EncodesCommand p i := by
  unfold NotACommand at h
  push Not at h
  obtain ⟨hempty, hopcode, hkdf, hksg, henc, hdec⟩ := h
  obtain ⟨op, rest, rfl⟩ := List.exists_cons_of_ne_nil hempty
  by_cases h1 : op = 0x01
  · exact encodesCommand_kdf (hkdf (congrArg some h1)) (congrArg some h1)
  by_cases h2 : op = 0x02
  · exact encodesCommand_ksg (hksg (congrArg some h2)) (congrArg some h2)
  by_cases h3 : op = 0x03
  · exact encodesCommand_enc (henc (congrArg some h3)) (congrArg some h3)
  obtain rfl : op = 0x04 := hopcode op rfl h1 h2 h3
  obtain ⟨len, hlen, hl⟩ := hdec rfl
  exact encodesCommand_dec rfl hlen hl

/-- The packet of a command decodes to it. -/
theorem EncodesCommand.decode {i : Instr} (h : EncodesCommand p i) : decode p = i := by
  obtain ⟨hwf, -, rfl⟩ := h
  exact decode_encode hwf

/-- Settles O2: a packet is the packet of a command, which it decodes to, or it is no command and RESERVED carries
it. -/
theorem encodeOfDecodeIsIdentity : Obligations.EncodeOfDecodeIsIdentity := by
  intro p
  by_cases hno : NotACommand p
  · rw [decode_of_notACommand hno]
    exact ⟨(malformedCause_isSome_iff p).mpr hno, rfl⟩
  · obtain ⟨i, hi⟩ := encodesCommand_of_not_notACommand hno
    rw [hi.decode]
    obtain ⟨hwf, -, hencode⟩ := hi
    exact ⟨hwf, hencode⟩

theorem decode_eq_reserved_iff : (∃ q, decode p = .reserved q) ↔ NotACommand p := by
  refine ⟨fun ⟨q, hq⟩ => ?_, fun hno => ⟨p, decode_of_notACommand hno⟩⟩
  by_contra hno
  obtain ⟨i, hi⟩ := encodesCommand_of_not_notACommand hno
  have hdecode := hi.decode
  obtain ⟨-, hnotReserved, -⟩ := hi
  exact hnotReserved q (hdecode.symm.trans hq)

end EncodeOfDecode

/-- Settles O6: the five packets decode by evaluation. -/
theorem decodeSampleWords : Obligations.DecodeSampleWords := by
  unfold Obligations.DecodeSampleWords
  decide

end Sys2Proof.Proofs
end

section
/-!
PROOFS. What one step does with each kind of event (70_reset_and_hazards.md R131, R132, R147), and the form and length of
every response (30_encoding.md R52 to R58).
-/

namespace Sys2Proof.Proofs

open Machine Laws

section Step

variable {s : State} {rest : List HostEvent}

theorem step_of_idle (h : s.inputs = []) : step s = .next s := by
  rw [step, nextEvent, h]

theorem step_of_reset (h : s.inputs = .reset :: rest) :
    step s = .next { seqt := [], inputs := rest, responses := s.responses } := by
  rw [step, nextEvent, h]
  rfl

theorem step_of_command {p : Packet} (h : s.inputs = .command p :: rest) :
    step s = exec (decode p) { seqt := s.seqt, inputs := rest, responses := s.responses } := by
  rw [step, nextEvent, h]

/-- Settles O10: the idle step. -/
theorem idleStepChangesNothing : Obligations.IdleStepChangesNothing := fun _ => step_of_idle

/-- Settles O7: the step of a command, and `withFetchWord` makes the packet of a table word the next event. -/
theorem stepRunsDecodedCommand : Obligations.StepRunsDecodedCommand := by
  refine ⟨fun s p rest i hinputs hdecode _ => ?_, fun s nbits w i hword => ?_⟩
  · rw [step_of_command hinputs, hdecode]
  · have hdecode : decode (tablePacket nbits w) = i := Option.some.inj hword
    rw [step_of_command rfl, hdecode]
    rfl

/-- The empty list reads as reset at every index (R26, R132). -/
theorem memRead_nil (i : Byte) : memRead [] i = { valid := false, last := 0 } := rfl

/-- Settles O9: the reset contents are the empty list. -/
theorem resetStateIsClear : Obligations.ResetStateIsClear := fun i => by
  rw [reset_seqt, memRead_nil]
  exact ⟨rfl, rfl⟩

/-- Settles O8: a reset event leaves the empty list for SEQT. -/
theorem resetEventClearsSeqt : Obligations.ResetEventClearsSeqt :=
  fun _ _ hinputs => ⟨_, step_of_reset hinputs, memRead_nil, rfl, rfl⟩

/-- Settles O4: `decode_eq_reserved_iff`, and the answer to RESERVED in the state with the event taken. -/
theorem malformedPacketsAnswerErrCmd : Obligations.MalformedPacketsAnswerErrCmd := by
  intro p
  refine ⟨decode_eq_reserved_iff, decode_of_notACommand, fun hno s rest hinputs => ?_⟩
  rw [step_of_command hinputs, decode_of_notACommand hno, exec_reserved]
  rfl

/-- Settles O5: RESERVED fails with `ERR_CMD`. -/
theorem reservedAnswersErrCmd : Obligations.ReservedAnswersErrCmd := exec_reserved

end Step

section Response

variable {c : Params} {i : Instr} {m : Memory} {s t : State}

/-- The two forms of a response: `OK` and the result bytes, or the status byte of an error alone (R52, R57). -/
theorem responsePacket_eq_cons {r : Reply} {code : Byte} {rest : Packet} (h : responsePacket r = code :: rest) :
    (code = okCode ∧ r.result = .ok rest) ∨ ∃ e, r.result = .error e ∧ code = errorCode e ∧ rest = [] := by
  rw [responsePacket] at h
  split at h
  next result hok =>
    obtain ⟨rfl, rfl⟩ := List.cons.inj h
    exact .inl ⟨rfl, hok⟩
  next e he =>
    obtain ⟨rfl, rfl⟩ := List.cons.inj h
    exact .inr ⟨e, he, rfl, rfl⟩

theorem errorCode_ne_okCode (e : ErrorStatus) : errorCode e ≠ okCode := by
  cases e <;> decide

/-- A status other than `OK` is the whole response (R57). -/
theorem rest_of_error_response {r : Reply} {code : Byte} {rest : Packet} (h : responsePacket r = code :: rest)
    (hcode : code ≠ okCode) : rest = [] := by
  obtain ⟨hok, -⟩ | ⟨_, -, -, hrest⟩ := responsePacket_eq_cons h
  · exact absurd hok hcode
  · exact hrest

/-- A response that begins with `OK` carries the result (R52). -/
theorem result_of_okPacket {r : Reply} {rest : Packet} (h : responsePacket r = okCode :: rest) :
    r.result = .ok rest := by
  obtain ⟨-, hok⟩ | ⟨e, -, hcode, -⟩ := responsePacket_eq_cons h
  · exact hok
  · exact absurd hcode.symm (errorCode_ne_okCode e)

/-- Every response begins with a status of R58. -/
theorem responsePacket_status (r : Reply) :
    ∃ (code : Byte) (rest : Packet), responsePacket r = code :: rest ∧ code.toNat ≤ 6 := by
  rw [responsePacket]
  split
  next result _ => exact ⟨okCode, result, rfl, by decide⟩
  next e _ => exact ⟨errorCode e, [], rfl, by cases e <;> decide⟩

/-- What a command left, read from the state after it. -/
theorem seqt_of_exec (h : exec i s = .next t) : t.seqt = (transact Config.block i s.seqt).seqt := by
  rw [exec_eq, Host.Outcome.next.injEq] at h
  rw [← h, answered_seqt]

/-- What a command answered, read from the state after it. -/
theorem response_of_exec {p : Packet} (h : exec i s = .next t) (hp : t.responses = s.responses ++ [p]) :
    responsePacket (transact Config.block i s.seqt) = p := by
  rw [exec_eq, Host.Outcome.next.injEq] at h
  rw [← h, answered_responses] at hp
  exact List.singleton_inj.mp (List.append_cancel_left hp)

/-- No step stops the block (R113, R126). -/
theorem step_total (s : State) : ∃ t, step s = .next t := by
  match h : s.inputs with
  | [] => exact ⟨_, step_of_idle h⟩
  | .reset :: _ => exact ⟨_, step_of_reset h⟩
  | .command _ :: _ => exact ⟨_, (step_of_command h).trans (exec_eq _ _)⟩

/-- Settles O11: every event has its step, and every reply is a status byte, followed by bytes only after `OK`. -/
theorem everyPacketGetsOneResponse : Obligations.EveryPacketGetsOneResponse := by
  refine ⟨step_total, fun i s => ?_⟩
  obtain ⟨code, rest, hresponse, hcode⟩ := responsePacket_status (transact Config.block i s.seqt)
  exact ⟨_, code, rest, hresponse ▸ exec_eq i s, hcode, rest_of_error_response hresponse⟩

/-- Settles O13: `exec` is the transaction on SEQT, whatever else the state holds. -/
theorem commandSeesOnlySeqt : Obligations.CommandSeesOnlySeqt :=
  fun i s₁ s₂ h => ⟨_, _, exec_eq i s₁, h ▸ exec_eq i s₂⟩

/-- The number of result bytes of a successful command; RESERVED never succeeds (R53 to R56, R120). -/
def okResultLength : Instr → Option Nat
  | .kdf _ => some 32
  | .ksg _ _ n => some n.toNat
  | .enc _ => some 28
  | .dec _ => some 19
  | .reserved _ => none

/-- The value inside a successful result that a function was applied to. -/
theorem ok_of_map_ok {ε α β : Type} {g : α → β} {r : Except ε α} {b : β} (h : r.map g = .ok b) :
    ∃ a, r = .ok a ∧ g a = b := by
  cases r with
  | error e => cases h
  | ok a => exact ⟨a, rfl, Except.ok.inj h⟩

theorem okResultLength_of_ok {result : Packet} (h : (transact c i m).result = .ok result) :
    okResultLength i = some result.length := by
  cases i with
  | kdf nodeId =>
    cases h
    simp [okResultLength]
  | ksg key nonce n =>
    cases h
    simp [okResultLength]
  | enc f =>
    obtain ⟨frame, -, rfl⟩ := ok_of_map_ok h
    simp [okResultLength]
  | dec data =>
    obtain ⟨f, -, rfl⟩ := ok_of_map_ok h
    simp [okResultLength]
  | reserved p => cases h

/-- Settles O12: a response that begins with `OK` is the result after it, whose length the format fixes. -/
theorem okResponseLengths : Obligations.OkResponseLengths := by
  intro i s t rest hexec hresponse
  have hlen := okResultLength_of_ok (result_of_okPacket (response_of_exec hexec hresponse))
  cases i <;> simp only [okResultLength, Option.some.injEq, reduceCtorEq] at hlen <;>
    simp [← hlen, Nat.add_comm]

/-- ENC of an invalid node id invokes no hash (R95, R96). -/
theorem hashCalls_enc_invalid {f : SensorFrame} (m : Memory) (hid : ¬ NodeIdValid c f.nodeId) :
    hashCalls c (.enc f) m = [] := by
  rw [hashCalls, encCalls, if_pos (nodeIdInvalid_iff.mpr (not_nodeIdValid_iff.mp hid))]

/-- Settles O28: the range check is ENC's first step. -/
theorem encRejectsInvalidNodeId : Obligations.EncRejectsInvalidNodeId := by
  intro f s hid
  have hid := not_nodeIdValid_iff.mpr hid
  exact ⟨exec_of_error (transact_enc_invalid _ hid), hashCalls_enc_invalid _ hid⟩

end Response

end Sys2Proof.Proofs
end

section
/-!
PROOFS. What commands and runs of commands do to SEQT (10_state.md R19): one lemma says every way a command can leave it,
and the invariant, the order of accepted numbers and the laws of replay (43_frame_codec.md R111, R136; R139) follow.
-/

namespace Sys2Proof.Proofs

open Machine Laws

section Change

variable {c : Params} {i : Instr} {m : Memory} {s t u : State}

/-- Received data without a frame is too short, and DEC of it changes nothing (R100). -/
theorem transact_dec_of_no_frame (c : Params) {data : Packet} (m : Memory) (h : frameOfData data = none) :
    transact c (.dec data) m = { seqt := m, result := .error .short } :=
  transact_dec_short c m (by simpa [h] using frameOfData_isSome data)

/-- The two ways for DEC to end: with an error before the table write, or with the validation of an accepted frame after
it (R98). -/
theorem transact_dec_cases (c : Params) (data : Packet) (m : Memory) :
    (∃ e ∈ [ErrorStatus.short, .authTag, .authReplay],
      transact c (.dec data) m = { seqt := m, result := .error e }) ∨
    ∃ f, frameOfData data = some f ∧ TagPasses c data f ∧ Fresh m f.nodeId f.txSeq ∧
      transact c (.dec data) m = { seqt := acceptSeq m f, result := (validateFrame c f).map sensorFrameBytes } := by
  match hf : frameOfData data with
  | none => exact .inl ⟨.short, by decide, transact_dec_of_no_frame c m hf⟩
  | some f =>
    by_cases ht : TagPasses c data f
    · by_cases hr : Fresh m f.nodeId f.txSeq
      · exact .inr ⟨f, rfl, ht, hr, transact_dec_accepted hf ht hr⟩
      · exact .inl ⟨.authReplay, by decide, transact_dec_replayed hf ht hr⟩
    · exact .inl ⟨.authTag, by decide, transact_dec_forged hf ht⟩

/-- A command writes SEQT only as a DEC of an authentic, fresh frame, and then that frame's entry alone (R104). -/
theorem transact_seqt_cases (c : Params) (i : Instr) (m : Memory) :
    (transact c i m).seqt = m ∨
    ∃ data f, i = .dec data ∧ frameOfData data = some f ∧ TagPasses c data f ∧ Fresh m f.nodeId f.txSeq ∧
      (transact c i m).seqt = acceptSeq m f := by
  cases i with
  | dec data =>
    obtain ⟨e, -, h⟩ | ⟨f, hf, ht, hr, h⟩ := transact_dec_cases c data m
    · exact .inl (by rw [h])
    · exact .inr ⟨data, f, rfl, hf, ht, hr, by rw [h]⟩
  | _ => exact .inl (transact_seqt_of_not_dec c m nofun)

/-- Every entry stays, or becomes valid with a greater number (R19 (b), (c)). -/
theorem entryAdvances_transact (c : Params) (i : Instr) (m : Memory) (j : Byte) :
    EntryAdvances (memRead m j) (memRead (transact c i m).seqt j) := by
  obtain h | ⟨_, f, -, -, -, hr, h⟩ := transact_seqt_cases c i m
  · exact .inl (by rw [h])
  · rw [h, memRead_acceptSeq]
    split
    next hj => exact .inr ⟨rfl, hj ▸ hr⟩
    next => exact .inl rfl

/-- A command keeps the canonical form of SEQT. -/
theorem wf_transact (hm : Memory.wf m = true) : Memory.wf (transact c i m).seqt = true := by
  obtain h | ⟨_, f, -, -, -, -, h⟩ := transact_seqt_cases c i m
  · rwa [h]
  · rw [h]
    exact wf_memWrite f.nodeId _ hm

/-- A command keeps R19 (a). -/
theorem seqtZeroWhenInvalid_transact (hm : SeqtZeroWhenInvalid m) : SeqtZeroWhenInvalid (transact c i m).seqt := by
  intro j hj
  obtain h | ⟨hvalid, -⟩ := entryAdvances_transact c i m j
  · rw [h] at hj ⊢
    exact hm j hj
  · exact absurd (hvalid.symm.trans hj) nofun

/-- SEQT after reset meets the invariant (R19, R26). -/
theorem inv_of_seqt_nil (h : s.seqt = []) : s.Inv := by
  rw [State.Inv, h]
  exact ⟨rfl, fun _ _ => rfl⟩

theorem inv_exec (hs : s.Inv) (h : exec i s = .next t) : t.Inv := by
  obtain ⟨hwf, hzero⟩ := hs
  rw [State.Inv, seqt_of_exec h]
  exact ⟨wf_transact hwf, seqtZeroWhenInvalid_transact hzero⟩

/-- Settles O46: the reset table is empty. -/
theorem resetHasInvariant : Obligations.ResetHasInvariant := inv_of_seqt_nil reset_seqt

/-- Settles O45: an idle step changes nothing, a reset event empties SEQT, and a command keeps both parts. -/
theorem stepKeepsInvariant : Obligations.StepKeepsInvariant := by
  intro s t hs h
  obtain ⟨-, rfl⟩ | ⟨_, -, rfl⟩ | ⟨_, rest, -, hexec⟩ := step_cases h
  case inl => exact hs
  case inr.inl => exact inv_of_seqt_nil rfl
  case inr.inr => exact inv_exec (s := { s with inputs := rest }) hs hexec

/-- Settles O47: every clause is read off the one entry a command can write and how that entry advances. -/
theorem seqtInvariants : Obligations.SeqtInvariants := by
  refine ⟨fun _ _ => rfl, fun i s t h => ?_⟩
  rw [seqt_of_exec h]
  have hadvances := entryAdvances_transact Config.block i s.seqt
  refine ⟨seqtZeroWhenInvalid_transact, fun j hvalid => ?valid, fun j hvalid hne => ?greater, ?frame, ?noFrame,
    transact_seqt_of_not_dec _ _⟩
  case valid =>
    obtain heq | ⟨hvalid', -⟩ := hadvances j
    · rwa [heq]
    · exact hvalid'
  case greater =>
    obtain heq | ⟨-, hlt⟩ := hadvances j
    · exact absurd heq hne
    · exact hlt hvalid
  case frame =>
    rintro data f rfl hf j hj
    exact memRead_transact_dec_of_ne _ _ hf hj
  case noFrame =>
    rintro data rfl hnone
    rw [transact_dec_of_no_frame _ _ hnone]

end Change

section Replay

variable {c : Params} {data : Packet} {f : SecureFrame} {m : Memory} {id : Byte} {q q' : U32} {s t u : State}

theorem not_fresh_iff : ¬ Fresh m id q ↔ (memRead m id).valid = true ∧ q.toNat ≤ (memRead m id).last.toNat := by
  rw [Fresh, Classical.not_imp, Nat.not_lt]

/-- A number that is not fresh bars every smaller one. -/
theorem not_fresh_of_le (hq : ¬ Fresh m id q) (hle : q'.toNat ≤ q.toNat) : ¬ Fresh m id q' := by
  rw [not_fresh_iff] at hq ⊢
  obtain ⟨hvalid, hlast⟩ := hq
  exact ⟨hvalid, hle.trans hlast⟩

/-- An accepted number is not fresh any more (R104). -/
theorem not_fresh_acceptSeq (m : Memory) (f : SecureFrame) : ¬ Fresh (acceptSeq m f) f.nodeId f.txSeq := by
  rw [not_fresh_iff, memRead_acceptSeq, if_pos rfl]
  exact ⟨rfl, Nat.le_refl _⟩

/-- No command makes a number fresh again (R19 (b), (c)). -/
theorem not_fresh_transact (c : Params) (i : Instr) (hq : ¬ Fresh m id q) :
    ¬ Fresh (transact c i m).seqt id q := by
  rw [not_fresh_iff] at hq ⊢
  obtain ⟨hvalid, hle⟩ := hq
  obtain h | ⟨hvalid', hlt⟩ := entryAdvances_transact c i m id
  · rw [h]
    exact ⟨hvalid, hle⟩
  · exact ⟨hvalid', hle.trans (Nat.le_of_lt (hlt hvalid))⟩

theorem not_fresh_commandRun (hrun : CommandRun s u) (hq : ¬ Fresh s.seqt id q) : ¬ Fresh u.seqt id q := by
  induction hrun with
  | refl => exact hq
  | tail i _ hexec ih =>
    rw [seqt_of_exec hexec]
    exact not_fresh_transact _ i ih

/-- DEC of a frame whose number is not fresh is rejected, authentic or not, and changes nothing (R102, R103). -/
theorem exec_dec_not_fresh (hf : frameOfData data = some f) (hr : ¬ Fresh s.seqt f.nodeId f.txSeq) :
    exec (.dec data) s = .next (s.answered s.seqt [0x03]) ∨ exec (.dec data) s = .next (s.answered s.seqt [0x04]) := by
  by_cases ht : TagPasses Config.block data f
  · exact .inr (exec_of_error (transact_dec_replayed hf ht hr))
  · exact .inl (exec_of_error (transact_dec_forged hf ht))

/-- A DEC that answered `OK`, `ERR_MSG_TYPE` or `ERR_NODE_ID` has accepted its frame's number (R104). -/
theorem accepted_of_status {code : Byte} {rest : Packet} (hexec : exec (.dec data) s = .next t)
    (hresponse : t.responses = s.responses ++ [code :: rest]) (hcode : code ∈ [0x00, 0x02, 0x05]) :
    ∃ f, frameOfData data = some f ∧ TagPasses Config.block data f ∧ Fresh s.seqt f.nodeId f.txSeq ∧
      t.seqt = acceptSeq s.seqt f := by
  have hstatus := response_of_exec hexec hresponse
  obtain ⟨e, he, h⟩ | ⟨f, hf, ht, hr, h⟩ := transact_dec_cases Config.block data s.seqt
  · rw [h] at hstatus
    obtain rfl : errorCode e = code := List.head_eq_of_cons_eq hstatus
    exact absurd hcode (by revert he; cases e <;> decide)
  · exact ⟨f, hf, ht, hr, by rw [seqt_of_exec hexec, h]⟩

/-- Settles O43: an accepted number is not fresh, no command makes it or a smaller one fresh again, and a frame that is
not fresh is rejected. -/
theorem noFrameAcceptedTwice : Obligations.NoFrameAcceptedTwice := by
  intro data₁ data₂ f₁ f₂ s t u code rest hf₁ hf₂ hid hle hexec hresponse hcode hrun
  obtain ⟨f, hf, ht, -, hseqt⟩ := accepted_of_status hexec hresponse hcode
  obtain rfl : f = f₁ := Option.some.inj (hf.symm.trans hf₁)
  have hbarred : ¬ Fresh u.seqt f.nodeId f.txSeq :=
    not_fresh_commandRun hrun (hseqt ▸ not_fresh_acceptSeq s.seqt f)
  have hbarred₂ : ¬ Fresh u.seqt f₂.nodeId f₂.txSeq := hid ▸ not_fresh_of_le hbarred hle
  exact ⟨exec_dec_not_fresh hf₂ hbarred₂, exec_of_error (transact_dec_replayed hf ht hbarred)⟩

/-- Settles O49: no 32-bit number is above `FFFFFFFF`, so that none is fresh, and none becomes so. -/
theorem sequenceSpaceExhausted : Obligations.SequenceSpaceExhausted := by
  intro data f s u hf hentry hrun
  have hstart : ¬ Fresh s.seqt f.nodeId f.txSeq := by
    rw [not_fresh_iff, hentry]
    exact ⟨rfl, Nat.le_of_lt_succ f.txSeq.isLt⟩
  obtain h | h := exec_dec_not_fresh hf (not_fresh_commandRun hrun hstart)
  · exact ⟨_, h, .inl rfl⟩
  · exact ⟨_, h, .inr rfl⟩

/-- In the empty table every number is fresh (R132). -/
theorem fresh_nil (id : Byte) (q : U32) : Fresh [] id q := fresh_iff.mpr (.inl rfl)

/-- Settles O50: after a reset event SEQT is empty and every number fresh. -/
theorem resetReopensTheReplayWindow : Obligations.ResetReopensTheReplayWindow := by
  intro s rest hinputs
  refine ⟨_, step_of_reset hinputs, fun data f hf ht htype hid => ?_⟩
  exact ⟨_, _, exec_dec_accepted_ok hf ht (fresh_nil f.nodeId f.txSeq) (validateFrame_of_valid htype hid)⟩

/-- A command that left SEQT as it was answers the same when issued again. -/
theorem exec_again {i : Instr} {p : Packet} (hexec : exec i s = .next t) (hp : t.responses = s.responses ++ [p])
    (hseqt : t.seqt = s.seqt) : exec i t = .next (t.answered t.seqt p) := by
  have hsame : (transact Config.block i s.seqt).seqt = s.seqt := (seqt_of_exec hexec).symm.trans hseqt
  rw [exec_eq, hseqt, hsame, response_of_exec hexec hp]

/-- Settles O14: what left SEQT as it was is answered as before, and an accepted frame is a replay the second time. -/
theorem repeatedPackets : Obligations.RepeatedPackets := by
  intro p s t code rest hexec hresponse
  refine ⟨fun hdec => ?notDec, fun data hdata hcode => ?accepted, fun hcode => ?early⟩
  case notDec =>
    have hseqt : t.seqt = s.seqt := (seqt_of_exec hexec).trans (transact_seqt_of_not_dec _ _ hdec)
    exact ⟨hseqt, exec_again hexec hresponse hseqt⟩
  case accepted =>
    rw [hdata] at hexec ⊢
    obtain ⟨f, hf, ht, hr, hseqt⟩ := accepted_of_status hexec hresponse hcode
    have hstale : ¬ Fresh t.seqt f.nodeId f.txSeq := hseqt ▸ not_fresh_acceptSeq s.seqt f
    exact ⟨fun hsame => hstale (hsame ▸ hr), exec_of_error (transact_dec_replayed hf ht hstale)⟩
  case early =>
    have hseqt : t.seqt = s.seqt := by
      rw [seqt_of_exec hexec]
      obtain ⟨rfl, -⟩ | ⟨e, he, rfl, -⟩ := responsePacket_eq_cons (response_of_exec hexec hresponse)
      · exact absurd hcode (by decide)
      · exact transact_seqt_of_error he (by revert hcode; cases e <;> decide)
    exact ⟨hseqt, exec_again hexec hresponse hseqt⟩

end Replay

end Sys2Proof.Proofs
end

section
/-!
PROOFS. The pure functions below the frame codec: payload packing (40_primitives.md R76), the labels of key derivation
(41_key_derivation.md R81, R84) and the keystream (42_keystream.md R90 to R93).
-/

namespace Sys2Proof.Proofs

open Machine Laws

section Payload

/-- The bytes of a payload in the order of R42. -/
theorem payloadBytes_toList (p : SensorPayload) :
    (payloadBytes p).toList = p.msgType :: (p.x.toList ++ (p.y.toList ++ (p.z.toList ++ p.tempTenths.toList))) :=
  bytesOfList_toList _ _

theorem unpack_payloadBytes (p : SensorPayload) : unpack (payloadBytes p) = p := by
  have hx : (unpack (payloadBytes p)).x = p.x := bytes_ext (by simp [unpack, payloadBytes_toList])
  have hy : (unpack (payloadBytes p)).y = p.y := bytes_ext (by simp [unpack, payloadBytes_toList])
  have hz : (unpack (payloadBytes p)).z = p.z :=
    bytes_ext (by simp [unpack, payloadBytes_toList, List.drop_append])
  have htemp : (unpack (payloadBytes p)).tempTenths = p.tempTenths :=
    bytes_ext (by simp [unpack, payloadBytes_toList, List.drop_append])
  calc unpack (payloadBytes p)
      = { msgType := p.msgType, x := (unpack (payloadBytes p)).x, y := (unpack (payloadBytes p)).y,
          z := (unpack (payloadBytes p)).z, tempTenths := (unpack (payloadBytes p)).tempTenths } := rfl
    _ = p := by rw [hx, hy, hz, htemp]

theorem payloadBytes_unpack (pt : Payload) : payloadBytes (unpack pt) = pt := by
  apply bytes_ext
  have hhead : pt.toList[0]? = some (unpack pt).msgType := by
    rw [List.getElem?_eq_getElem (by simp), Vector.getElem_toList]
    rfl
  rw [payloadBytes_toList, unpack_fields_toList, cons_drop_one hhead]

/-- Settles O18: a payload is its five members, in both directions. -/
theorem packUnpackInverse : Obligations.PackUnpackInverse := by
  refine fun c => ⟨fun x y z tb => unpack_payloadBytes _, fun pt x y z tb h => ?_⟩
  rw [pack, ← h, payloadBytes_unpack]

end Payload

section Labels

/-- Settles O19: the labels of R44, written out. -/
theorem kdfHashesItsLabels : Obligations.KdfHashesItsLabels :=
  fun _ _ => ⟨joinBytes_toList _ _, joinBytes_toList _ _, fun _ => rfl⟩

/-- The label message of a purpose and a node id, extended by the separator or not (R44). -/
def labelMessage (p : Purpose) (extended : Bool) (id : Byte) : Packet :=
  if extended then extendedLabel p id else label p id

variable (p : Purpose) (e : Bool) (id : Byte)

theorem labelMessage_length : (labelMessage p e id).length = if e then 7 else 6 := by
  cases e
  · exact label_length p id
  · exact extendedLabel_length p id

theorem labelMessage_take : (labelMessage p e id).take 3 = labelPrefix p := by
  cases p <;> cases e <;> rfl

theorem labelMessage_getElem? : (labelMessage p e id)[3]? = some id := by
  cases p <;> cases e <;> rfl

theorem labelPrefix_injective : Function.Injective labelPrefix := by
  intro p q h
  revert h
  cases p <;> cases q <;> decide

/-- Settles O21: the first three bytes tell the purpose, the length the extension, byte 3 the node id. -/
theorem labelMessagesDistinct : Obligations.LabelMessagesDistinct := by
  refine ⟨fun p q e g i j h => ⟨?purpose, ?extension, ?id⟩, labelMessage_getElem?⟩
  all_goals replace h : labelMessage p e i = labelMessage q g j := h
  case purpose =>
    have hprefix := congrArg (List.take 3) h
    rw [labelMessage_take, labelMessage_take] at hprefix
    exact labelPrefix_injective hprefix
  case extension =>
    have hlength := congrArg List.length h
    rw [labelMessage_length, labelMessage_length] at hlength
    revert hlength
    cases e <;> cases g <;> decide
  case id =>
    have hbyte := congrArg (fun message : Packet => message[3]?) h
    simp only [labelMessage_getElem?] at hbyte
    exact Option.some.inj hbyte

end Labels

section Keystream

variable (c : Params) (k : Key) (nonce : U32)

/-- Settles O24: byte `j` of a keystream does not depend on its length. -/
theorem keystreamPrefix : Obligations.KeystreamPrefix := by
  intro c k nonce n n' hle
  apply List.ext_getElem?
  intro j
  by_cases hj : j < n
  · rw [List.getElem?_take_of_lt hj, ksg_getElem? c k nonce hj, ksg_getElem? c k nonce (hj.trans_le hle)]
  · rw [List.getElem?_eq_none (by simpa using hj), List.getElem?_eq_none (by simp; omega)]

theorem ksg_zero_toList : (ksg c k nonce 0).toList = [] :=
  List.eq_nil_of_length_eq_zero Vector.length_toList

/-- Settles O25: no byte asks for no block. -/
theorem keystreamOfLengthZero : Obligations.KeystreamOfLengthZero := by
  refine fun c k nonce m => ⟨ksg_zero_toList c k nonce, rfl, ?_⟩
  show okCode :: (ksg c k nonce 0).toList = [0x00]
  rw [ksg_zero_toList]
  rfl

theorem le32_injective : Function.Injective le32 :=
  Function.LeftInverse.injective (g := unLe32) unLe32_le32

/-- A block message determines its nonce and its block index (R45, R93). -/
theorem blockMessage_inj {nonce nonce' b b' : U32} (h : blockMessage nonce b = blockMessage nonce' b') :
    nonce = nonce' ∧ b = b' := by
  obtain ⟨-, hfields⟩ := List.cons.inj h
  obtain ⟨hnonce, hb⟩ := List.append_inj hfields (by simp)
  exact ⟨le32_injective (bytes_ext hnonce), le32_injective (bytes_ext hb)⟩

/-- A command asks for at most 2^29 blocks (R92). -/
theorem blockCount_le (n : U32) : blockCount n.toNat ≤ 2 ^ 29 := by
  have hn := n.isLt
  rw [blockCount]
  omega

/-- Settles O26: `blockMessage_inj`, and 2^29 blocks are counted within 32 bits. -/
theorem blockMessagesDistinct : Obligations.BlockMessagesDistinct := by
  refine ⟨fun _ _ _ _ => blockMessage_inj, fun n b hb => ?_⟩
  have hlt : b < 2 ^ 29 := hb.trans_le (blockCount_le n)
  exact ⟨hlt, (BitVec.toNat_ofNat b 32).trans (Nat.mod_eq_of_lt (hlt.trans (by decide)))⟩

end Keystream

end Sys2Proof.Proofs
end

section
/-!
PROOFS. The frame codec as a whole (43_frame_codec.md): the frame ENC makes (R95), what DEC reads out of received data
(R101), that the one undoes the other (R110, R66), and what tampering does (R112).
-/

namespace Sys2Proof.Proofs

open Machine Laws

section Received

variable {data : Packet} {f : SecureFrame}

/-- Received data that holds a frame is long enough for one. -/
theorem length_of_frame (h : frameOfData data = some f) : 28 ≤ data.length := by
  simpa [h] using (frameOfData_isSome data).symm

/-- The fields of the frame in received data are the bytes at their offsets, the number little-endian (R41, R101). -/
theorem frameOfData_fields (h : frameOfData data = some f) :
    data[0]? = some f.nodeId ∧ f.txSeq.toNat = numberOfBytes ((data.drop 1).take 4) ∧
      f.ciphertext.toList = (data.drop 5).take 15 ∧ f.tag.toList = (data.drop 20).take 8 := by
  have hlen := length_of_frame h
  rw [frameOfData, dif_pos hlen, Option.some.injEq] at h
  subst h
  exact ⟨getElem?_eq_byteAt _, unLe32_slice_toNat data 1 (by omega), slice_toList data 5 15 (by omega),
    slice_toList data 20 8 (by omega)⟩

/-- Settles O30: 28 bytes are enough for a frame, whatever they are. -/
theorem receivedFrameSplit : Obligations.ReceivedFrameSplit := by
  intro data hlen
  have hsome : (frameOfData data).isSome = true := by rw [frameOfData_isSome, decide_eq_true hlen]
  obtain ⟨f, hf⟩ := Option.isSome_iff_exists.mp hsome
  exact ⟨f, hf, frameOfData_fields hf⟩

/-- The 28 bytes of a frame hold that frame. -/
theorem frameOfData_frameBytes (f : SecureFrame) : frameOfData (frameBytes f).toList = some f := by
  have hlen : 28 ≤ (frameBytes f).toList.length := by simp
  have hseq : slice (frameBytes f).toList 1 4 (by simp) = le32 f.txSeq :=
    bytes_ext (by simp [taggedMessage, header])
  have hct : slice (frameBytes f).toList 5 15 (by simp) = f.ciphertext :=
    bytes_ext (by simp [taggedMessage, header])
  have htag : slice (frameBytes f).toList 20 8 (by simp) = f.tag :=
    bytes_ext (by simp [taggedMessage, header, List.drop_append])
  rw [frameOfData, dif_pos hlen, hseq, hct, htag, unLe32_le32]
  rfl

/-- Bytes that follow a frame do not change it (R100). -/
theorem frameOfData_frameBytes_append (f : SecureFrame) (extra : Packet) :
    frameOfData ((frameBytes f).toList ++ extra) = some f := by
  have hlen : 28 ≤ ((frameBytes f).toList ++ extra).length := by
    rw [List.length_append, Vector.length_toList]
    omega
  have hcut : ((frameBytes f).toList ++ extra).take 28 = (frameBytes f).toList := List.take_left' (by simp)
  rw [← frameOfData_take hlen, hcut, frameOfData_frameBytes]

/-- The tagged message is the first 20 bytes of a frame (R46). -/
theorem take_frameBytes_append (f : SecureFrame) (extra : Packet) :
    ((frameBytes f).toList ++ extra).take 20 = taggedMessage f.nodeId f.txSeq f.ciphertext := by
  rw [frameBytes_toList, List.append_assoc]
  exact List.take_left' (by simp)

end Received

section Sealed

variable (c : Params) (f : SensorFrame)

/-- The ciphertext of ENC: the packed payload xor 15 keystream bytes (R95). -/
def sealedCiphertext (c : Params) (f : SensorFrame) : Payload :=
  xorBytes (pack c f.x f.y f.z f.tempTenths) (ksg c (kdf c f.nodeId).enc f.txSeq 15)

/-- The frame that ENC makes (R95). -/
def sealedFrame (c : Params) (f : SensorFrame) : SecureFrame :=
  { nodeId := f.nodeId, txSeq := f.txSeq, ciphertext := sealedCiphertext c f,
    tag := tagOf c (kdf c f.nodeId).mac (taggedMessage f.nodeId f.txSeq (sealedCiphertext c f)) }

/-- `ENCODE` succeeds exactly for valid node ids, with the bytes of the sealed frame (R95). -/
theorem encodeFrame_eq_ok_iff {F : FrameBytes} :
    encodeFrame c f = .ok F ↔ NodeIdValid c f.nodeId ∧ frameBytes (sealedFrame c f) = F := by
  rw [← nodeIdInvalid_eq_false_iff]
  cases hid : nodeIdInvalid c f.nodeId
  · rw [encodeFrame, if_neg (Bool.eq_false_iff.mp hid)]
    exact ⟨fun h => ⟨rfl, Except.ok.inj h⟩, fun ⟨_, hF⟩ => congrArg Except.ok hF⟩
  · rw [encodeFrame, if_pos hid]
    exact ⟨nofun, fun ⟨hvalid, _⟩ => absurd hvalid nofun⟩

theorem encodeFrame_of_valid (hid : NodeIdValid c f.nodeId) :
    encodeFrame c f = .ok (frameBytes (sealedFrame c f)) :=
  (encodeFrame_eq_ok_iff c f).mpr ⟨hid, rfl⟩

/-- ENC of a valid node id, whole (R55, R96). -/
theorem exec_enc_of_valid (s : State) (hid : NodeIdValid Config.block f.nodeId) :
    exec (.enc f) s =
      .next (s.answered s.seqt (okCode :: (frameBytes (sealedFrame Config.block f)).toList)) := by
  refine exec_of_ok ?_
  rw [transact, encCommand, encodeFrame_of_valid _ f hid]
  rfl

theorem pack_toList : (pack c f.x f.y f.z f.tempTenths).toList =
    c.msgType :: (f.x.toList ++ f.y.toList ++ f.z.toList ++ f.tempTenths.toList) := by
  simp only [pack, payloadBytes_toList, List.append_assoc]

theorem sealedCiphertext_toList : (sealedCiphertext c f).toList =
    List.zipWith (· ^^^ ·) (c.msgType :: (f.x.toList ++ f.y.toList ++ f.z.toList ++ f.tempTenths.toList))
      (ksg c (kdf c f.nodeId).enc f.txSeq 15).toList := by
  rw [sealedCiphertext, xorBytes_toList, pack_toList]

/-- Settles O27: the sealed frame's bytes, with its payload and its tag written out. -/
theorem encAnswersTheFrame : Obligations.EncAnswersTheFrame := by
  intro f s hid keys pt ct tagged
  have htagged : taggedMessage f.nodeId f.txSeq (sealedCiphertext Config.block f) = tagged := by
    rw [taggedMessage, sealedCiphertext_toList]
    rfl
  rw [exec_enc_of_valid f s hid, frameBytes_toList, ← htagged]
  rfl

/-- Two byte strings encrypted with the same keystream: it cancels. -/
theorem xorBytes_xorBytes_xorBytes {n : Nat} (a b k : Bytes n) :
    xorBytes (xorBytes a k) (xorBytes b k) = xorBytes a b := by
  rw [xorBytes_comm b k, ← xorBytes_assoc, xorBytes_xorBytes_cancel_right]

theorem ciphertext_of_frameBytes (f : SecureFrame) :
    ((frameBytes f).toList.drop 5).take 15 = f.ciphertext.toList := by
  obtain ⟨-, -, hct, -⟩ := frameOfData_fields (frameOfData_frameBytes f)
  exact hct.symm

/-- Settles O29: both ciphertexts are xored with the keystream of the one node id and number. -/
theorem reusedSequenceNumberReusesKeystream : Obligations.ReusedSequenceNumberReusesKeystream := by
  intro c f g F G hid hseq hF hG
  obtain ⟨-, rfl⟩ := (encodeFrame_eq_ok_iff c f).mp hF
  obtain ⟨-, rfl⟩ := (encodeFrame_eq_ok_iff c g).mp hG
  rw [ciphertext_of_frameBytes, ciphertext_of_frameBytes, ← pack_toList, ← pack_toList, ← xorBytes_toList,
    ← xorBytes_toList]
  simp only [sealedFrame, sealedCiphertext, hid, hseq, xorBytes_xorBytes_xorBytes]

end Sealed

section RoundTrip

variable {c : Params} {f : SensorFrame}

theorem tagPasses_sealedFrame (c : Params) (f : SensorFrame) (extra : Packet) :
    TagPasses c ((frameBytes (sealedFrame c f)).toList ++ extra) (sealedFrame c f) := by
  rw [TagPasses, take_frameBytes_append]
  rfl

/-- Decryption gives back what was packed (R71, R76). -/
theorem decryptFrame_sealedFrame (c : Params) (f : SensorFrame) :
    decryptFrame c (sealedFrame c f) =
      { msgType := c.msgType, x := f.x, y := f.y, z := f.z, tempTenths := f.tempTenths } := by
  simp only [decryptFrame, sealedFrame, sealedCiphertext, xorBytes_xorBytes_cancel_right]
  exact unpack_payloadBytes _

/-- A sealed frame of a valid node id validates to the operands it was made of (R108). -/
theorem validateFrame_sealedFrame (hid : NodeIdValid c f.nodeId) : validateFrame c (sealedFrame c f) = .ok f := by
  have hid : ¬ nodeIdInvalid c (sealedFrame c f).nodeId = true :=
    Bool.eq_false_iff.mp ((nodeIdInvalid_eq_false_iff _ _).mpr hid)
  simp only [validateFrame, decryptFrame_sealedFrame]
  rw [if_neg (not_not.mpr rfl), if_neg hid]
  rfl

/-- `DECODE` of an authentic, fresh frame (R104 to R108). -/
theorem decodeFrame_accepted {data : Packet} {F : SecureFrame} {m : Memory} (hF : frameOfData data = some F)
    (ht : TagPasses c data F) (hr : Fresh m F.nodeId F.txSeq) :
    decodeFrame c data m = (acceptSeq m F, validateFrame c F) := by
  obtain ⟨hnone, -⟩ | ⟨F', hF', ⟨hforged, -⟩ | ⟨-, hreplay, -⟩ | ⟨-, -, h⟩⟩ := decodeFrame_cases c data m
  case inl => exact absurd (hnone.symm.trans hF) nofun
  all_goals obtain rfl : F' = F := Option.some.inj (hF'.symm.trans hF)
  case inr.inl => exact absurd ht hforged
  case inr.inr.inl => exact absurd ((isReplay_eq_false_iff _ _ _).mpr hr) (by rw [hreplay]; nofun)
  case inr.inr.inr => exact h

/-- `DECODE` undoes `ENCODE`, whatever follows the frame (R110). -/
theorem decodeFrame_sealedFrame (extra : Packet) {m : Memory} (hid : NodeIdValid c f.nodeId)
    (hr : Fresh m f.nodeId f.txSeq) :
    decodeFrame c ((frameBytes (sealedFrame c f)).toList ++ extra) m =
      (memWrite m f.nodeId { valid := true, last := f.txSeq }, .ok f) := by
  rw [decodeFrame_accepted (frameOfData_frameBytes_append _ extra) (tagPasses_sealedFrame c f extra) hr,
    validateFrame_sealedFrame hid]
  rfl

/-- Settles O41: `decodeFrame_sealedFrame` in the block's own commands. -/
theorem roundTrip : Obligations.RoundTrip := by
  intro f s hid
  refine ⟨_, Vector.length_toList, exec_enc_of_valid f s hid, fun u extra hr => ?_⟩
  refine ⟨memWrite u.seqt f.nodeId { valid := true, last := f.txSeq }, exec_of_ok ?_, ?_⟩
  · rw [transact, decCommand, decodeFrame_sealedFrame extra hid hr]
    simp [Except.map, sensorFrameBytes, header]
  · rw [memRead_memWrite_valid, if_pos rfl]

/-- The frame a block makes depends on `H`, `MK` and `MSG_TYPE` alone: `MAX_NODES` does not enter it. -/
theorem sealedFrame_congr {c' : Params} (hhash : c'.hash = c.hash) (hkey : c'.masterKey = c.masterKey)
    (htype : c'.msgType = c.msgType) : sealedFrame c' f = sealedFrame c f := by
  cases c
  cases c'
  simp only at hhash hkey htype
  subst hhash hkey htype
  rfl

/-- Settles O42: the receiver would have made the same frame itself. -/
theorem blocksInteroperate : Obligations.BlocksInteroperate := by
  intro sender receiver f F m hhash hkey htype hmax hF hr
  obtain ⟨⟨hpos, -⟩, rfl⟩ := (encodeFrame_eq_ok_iff sender f).mp hF
  have hdecode := decodeFrame_sealedFrame (c := receiver) [] ⟨hpos, hmax⟩ hr
  rwa [sealedFrame_congr hhash hkey htype, List.append_nil] at hdecode

end RoundTrip

section Tampering

/-- Settles O44: with the first 20 bytes unchanged the expected tag is that of the acceptable frame, which the carried
tag is not; otherwise the premise on `H` is that the tag check fails. -/
theorem tamperedFramesAreRejected : Obligations.TamperedFramesAreRejected := by
  intro data data' f f' s hf ht _ hf'
  obtain ⟨hid, -, -, htag⟩ := frameOfData_fields hf
  obtain ⟨hid', -, -, htag'⟩ := frameOfData_fields hf'
  refine ⟨fun hsame hdiffer => ?_, fun _ hhash => exec_of_error (transact_dec_forged hf' hhash)⟩
  have hfirst (p : Packet) : p[0]? = (p.take 20)[0]? := (List.getElem?_take_of_lt (by decide)).symm
  have hnode : f'.nodeId = f.nodeId := by
    rw [hfirst, hsame, ← hfirst, hid] at hid'
    exact (Option.some.inj hid').symm
  refine exec_of_error (transact_dec_forged hf' fun ht' => hdiffer ?_)
  rw [← htag, ← htag', ← show _ = f.tag from ht, ← show _ = f'.tag from ht', hsame, hnode]

end Tampering

section VerifyThenDecrypt

/-- DEC of data without a frame invokes no hash (R100). -/
theorem hashCalls_dec_of_no_frame (c : Params) {data : Packet} (m : Memory) (h : frameOfData data = none) :
    hashCalls c (.dec data) m = [] :=
  hashCalls_dec_short c m (by simpa [h] using frameOfData_isSome data)

/-- DEC of an authentic replay generates no keystream (R98 step 6, R109). -/
theorem hashCalls_dec_replayed {c : Params} {data : Packet} {f : SecureFrame} {m : Memory}
    (hf : frameOfData data = some f) (ht : TagPasses c data f) (hr : ¬ Fresh m f.nodeId f.txSeq) :
    hashCalls c (.dec data) m = kdfCalls c f.nodeId ++ [((kdf c f.nodeId).mac, data.take 20)] := by
  have hcheck : ¬ (!tagsEqual (expectedTag c data f) f.tag) = true := by
    simpa [tagsEqual, tagPasses_iff] using ht
  rw [← isReplay_eq_false_iff, Bool.not_eq_false] at hr
  simp only [hashCalls, decCalls, hf, if_neg hcheck, if_pos hr]

/-- DEC of an accepted frame goes on to the keystream of 15 bytes (R98 step 9). -/
theorem hashCalls_dec_accepted {c : Params} {data : Packet} {f : SecureFrame} {m : Memory}
    (hf : frameOfData data = some f) (ht : TagPasses c data f) (hr : Fresh m f.nodeId f.txSeq) :
    hashCalls c (.dec data) m =
      kdfCalls c f.nodeId ++ [((kdf c f.nodeId).mac, data.take 20)] ++
        ksgCalls (kdf c f.nodeId).enc f.txSeq 15 := by
  have hcheck : ¬ (!tagsEqual (expectedTag c data f) f.tag) = true := by
    simpa [tagsEqual, tagPasses_iff] using ht
  have hfresh := Bool.eq_false_iff.mp ((isReplay_eq_false_iff _ _ _).mpr hr)
  simp only [hashCalls, decCalls, hf, if_neg hcheck, if_neg hfresh]

/-- DEC that does not come to decryption: the invocations of `H` are those of the subkeys and of the tag (R109). -/
theorem hashCalls_dec_rejected {c : Params} {data : Packet} {f : SecureFrame} {m : Memory}
    (hf : frameOfData data = some f) (h : ¬ (TagPasses c data f ∧ Fresh m f.nodeId f.txSeq)) :
    hashCalls c (.dec data) m = kdfCalls c f.nodeId ++ [((kdf c f.nodeId).mac, data.take 20)] := by
  by_cases ht : TagPasses c data f
  · exact hashCalls_dec_replayed hf ht fun hr => h ⟨ht, hr⟩
  · exact hashCalls_dec_forged m hf ht

/-- Settles O40: `transact_seqt_cases` for the table, the invocations of a DEC that is rejected for the keystream, and the
form of an error response for the plaintext. -/
theorem verifyThenDecrypt : Obligations.VerifyThenDecrypt := by
  refine fun c data m => ⟨fun hwrite => ?_, hashCalls_dec_of_no_frame c m,
    fun f => hashCalls_dec_rejected, fun _ _ => rest_of_error_response⟩
  obtain hkept | ⟨data', f, hdata, hf, ht, -, -⟩ := transact_seqt_cases c (.dec data) m
  · exact absurd hkept hwrite
  · cases hdata
    exact ⟨f, hf, ht⟩

end VerifyThenDecrypt

end Sys2Proof.Proofs
end

section
/-!
PROOFS. The invocations of `H` that `hashCalls` lists (40_primitives.md R69): they are all that a command depends on, and
their messages have four shapes and are few (70_reset_and_hazards.md R146).
-/

namespace Sys2Proof.Proofs

open Machine Laws

section Calls

variable {c : Params} {f : SensorFrame}

/-- ENC of a valid node id: the invocations of the subkeys, of the keystream and of the tag (R95). -/
theorem hashCalls_enc_valid (m : Memory) (hid : NodeIdValid c f.nodeId) :
    hashCalls c (.enc f) m = kdfCalls c f.nodeId ++ (ksgCalls (kdf c f.nodeId).enc f.txSeq 15 ++
      [((kdf c f.nodeId).mac, taggedMessage f.nodeId f.txSeq (sealedCiphertext c f))]) := by
  rw [hashCalls, encCalls, if_neg (Bool.eq_false_iff.mp ((nodeIdInvalid_eq_false_iff _ _).mpr hid))]
  rfl

/-- The message of DEC's tag is 20 bytes (R46). -/
theorem length_take_of_frame {data : Packet} {f : SecureFrame} (hf : frameOfData data = some f) :
    (data.take 20).length = 20 := by
  have hlen := length_of_frame hf
  rw [List.length_take]
  omega

end Calls

section Agreement

/-- Two blocks have the same `MK`, `MAX_NODES` and `MSG_TYPE`: at most their `H` differ. -/
structure SameButHash (c c' : Params) : Prop where
  masterKey : c'.masterKey = c.masterKey
  maxNodesPred : c'.maxNodesPred = c.maxNodesPred
  msgType : c'.msgType = c.msgType

/-- The `H` of two blocks agree at the invocations in a list. -/
def HashAgreesAt (c c' : Params) (calls : List (Key × Packet)) : Prop :=
  ∀ (k : Key) (msg : Packet), (k, msg) ∈ calls → c'.hash k msg = c.hash k msg

variable {c c' : Params} {k : Key} {msg : Packet} {xs ys : List (Key × Packet)}

theorem hashAgreesAt_append :
    HashAgreesAt c c' (xs ++ ys) ↔ HashAgreesAt c c' xs ∧ HashAgreesAt c c' ys := by
  simp only [HashAgreesAt, List.mem_append, or_imp, forall_and]

theorem hashAgreesAt_singleton : HashAgreesAt c c' [(k, msg)] ↔ c'.hash k msg = c.hash k msg := by
  simp [HashAgreesAt]

theorem ksg_congr {nonce : U32} {n : Nat} (h : HashAgreesAt c c' (ksgCalls k nonce n)) :
    ksg c' k nonce n = ksg c k nonce n := by
  have hblock : ∀ b ∈ List.range (blockCount n), keystreamBlock c' k nonce b = keystreamBlock c k nonce b :=
    fun b hb => h _ _ (List.mem_map_of_mem hb)
  have hblocks : keystreamBlocks c' k nonce (blockCount n) = keystreamBlocks c k nonce (blockCount n) :=
    List.flatMap_congr fun b hb => by rw [hblock b hb]
  apply bytes_ext
  rw [ksg, ksg, bytesOfList_toList, bytesOfList_toList, hblocks]

variable (hc : SameButHash c c')

include hc

theorem kdf_congr {id : Byte} (h : HashAgreesAt c c' (kdfCalls c id)) : kdf c' id = kdf c id := by
  simp only [HashAgreesAt, kdfCalls, List.mem_cons, List.not_mem_nil, or_false, Prod.mk.injEq] at h
  simp only [kdf, subkey, hashOf, hc.masterKey]
  rw [h _ _ (.inl ⟨rfl, rfl⟩), h _ _ (.inr (.inl ⟨rfl, rfl⟩)), h _ _ (.inr (.inr (.inl ⟨rfl, rfl⟩))),
    h _ _ (.inr (.inr (.inr ⟨rfl, rfl⟩)))]

theorem nodeIdInvalid_congr (id : Byte) : nodeIdInvalid c' id = nodeIdInvalid c id := by
  rw [nodeIdInvalid, nodeIdInvalid, Params.maxNodes, Params.maxNodes, hc.maxNodesPred]

theorem nodeIdValid_congr (id : Byte) : NodeIdValid c' id ↔ NodeIdValid c id := by
  rw [← nodeIdInvalid_eq_false_iff, ← nodeIdInvalid_eq_false_iff, nodeIdInvalid_congr hc]

/-- A frame is made with the invocations of its subkeys, its keystream and its tag (R95). -/
theorem sealedFrame_congr_of_hashAgreesAt {f : SensorFrame} (hkdf : HashAgreesAt c c' (kdfCalls c f.nodeId))
    (hksg : HashAgreesAt c c' (ksgCalls (kdf c f.nodeId).enc f.txSeq 15))
    (htag : HashAgreesAt c c'
      [((kdf c f.nodeId).mac, taggedMessage f.nodeId f.txSeq (sealedCiphertext c f))]) :
    sealedFrame c' f = sealedFrame c f := by
  have hct : sealedCiphertext c' f = sealedCiphertext c f := by
    simp only [sealedCiphertext, pack, hc.msgType, kdf_congr hc hkdf, ksg_congr hksg]
  simp only [sealedFrame, hct, kdf_congr hc hkdf, tagOf, hashOf, hashAgreesAt_singleton.mp htag]

theorem transact_enc_congr {f : SensorFrame} {m : Memory} (h : HashAgreesAt c c' (hashCalls c (.enc f) m)) :
    transact c' (.enc f) m = transact c (.enc f) m := by
  by_cases hid : NodeIdValid c f.nodeId
  · rw [hashCalls_enc_valid m hid, hashAgreesAt_append, hashAgreesAt_append] at h
    obtain ⟨hkdf, hksg, htag⟩ := h
    simp only [transact, encCommand, encodeFrame_of_valid _ f hid,
      encodeFrame_of_valid c' f ((nodeIdValid_congr hc _).mpr hid),
      sealedFrame_congr_of_hashAgreesAt hc hkdf hksg htag]
  · rw [transact_enc_invalid m hid, transact_enc_invalid m (mt (nodeIdValid_congr hc _).mp hid)]

/-- An accepted frame is validated with the invocations of its subkeys and its keystream (R105). -/
theorem validateFrame_congr {f : SecureFrame} (hkdf : HashAgreesAt c c' (kdfCalls c f.nodeId))
    (hksg : HashAgreesAt c c' (ksgCalls (kdf c f.nodeId).enc f.txSeq 15)) :
    validateFrame c' f = validateFrame c f := by
  have hdecrypt : decryptFrame c' f = decryptFrame c f := by
    rw [decryptFrame, decryptFrame, kdf_congr hc hkdf, ksg_congr hksg]
  rw [validateFrame, validateFrame, hdecrypt, hc.msgType, nodeIdInvalid_congr hc]

theorem tagPasses_congr {data : Packet} {f : SecureFrame} (hkdf : HashAgreesAt c c' (kdfCalls c f.nodeId))
    (htag : HashAgreesAt c c' [((kdf c f.nodeId).mac, data.take 20)]) :
    TagPasses c' data f ↔ TagPasses c data f := by
  rw [TagPasses, TagPasses, kdf_congr hc hkdf, hashAgreesAt_singleton.mp htag]

theorem transact_dec_congr_of_hashAgreesAt {data : Packet} {m : Memory}
    (h : HashAgreesAt c c' (hashCalls c (.dec data) m)) : transact c' (.dec data) m = transact c (.dec data) m := by
  match hf : frameOfData data with
  | none => rw [transact_dec_of_no_frame c m hf, transact_dec_of_no_frame c' m hf]
  | some f =>
    by_cases haccepted : TagPasses c data f ∧ Fresh m f.nodeId f.txSeq
    · obtain ⟨ht, hr⟩ := haccepted
      rw [hashCalls_dec_accepted hf ht hr, hashAgreesAt_append, hashAgreesAt_append] at h
      obtain ⟨⟨hkdf, htag⟩, hksg⟩ := h
      rw [transact_dec_accepted hf ht hr, transact_dec_accepted hf ((tagPasses_congr hc hkdf htag).mpr ht) hr,
        validateFrame_congr hc hkdf hksg]
    · rw [hashCalls_dec_rejected hf haccepted, hashAgreesAt_append] at h
      obtain ⟨hkdf, htag⟩ := h
      have hsame := tagPasses_congr hc hkdf htag
      by_cases ht : TagPasses c data f
      · have hr : ¬ Fresh m f.nodeId f.txSeq := fun hr => haccepted ⟨ht, hr⟩
        rw [transact_dec_replayed hf ht hr, transact_dec_replayed hf (hsame.mpr ht) hr]
      · rw [transact_dec_forged hf ht, transact_dec_forged hf (mt hsame.mp ht)]

theorem transact_congr {i : Instr} {m : Memory} (h : HashAgreesAt c c' (hashCalls c i m)) :
    transact c' i m = transact c i m := by
  cases i with
  | kdf id => simp only [transact, kdfCommand, kdf_congr hc h]
  | ksg key nonce n => simp only [transact, ksgCommand, ksg_congr h]
  | enc f => exact transact_enc_congr hc h
  | dec data => exact transact_dec_congr_of_hashAgreesAt hc h
  | reserved p => rfl

end Agreement

/-- Settles O51: `transact_congr`, command by command. -/
theorem hashCallsDetermineTheResult : Obligations.HashCallsDetermineTheResult :=
  fun _ _ _ _ hkey hmax htype h => transact_congr ⟨hkey, hmax, htype⟩ h

section Shapes

/-- The shapes of R69: a label or an extended label under the master key, a keystream block message, or 20 bytes under
some node's `K_mac`. -/
def HashShape (c : Params) (call : Key × Packet) : Prop :=
  (call.1 = c.masterKey ∧ ∃ (p : Purpose) (id : Byte), call.2 = label p id ∨ call.2 = extendedLabel p id) ∨
  (∃ nonce b : U32, call.2 = blockMessage nonce b) ∨
  (∃ id : Byte, call.1 = (kdf c id).mac ∧ call.2.length = 20)

variable {c : Params} {m : Memory}

theorem hashShape_kdfCalls (id : Byte) : ∀ call ∈ kdfCalls c id, HashShape c call := by
  simp only [kdfCalls, List.forall_mem_cons]
  exact ⟨.inl ⟨rfl, .enc, id, .inl rfl⟩, .inl ⟨rfl, .enc, id, .inr rfl⟩, .inl ⟨rfl, .mac, id, .inl rfl⟩,
    .inl ⟨rfl, .mac, id, .inr rfl⟩, nofun⟩

theorem hashShape_ksgCalls (k : Key) (nonce : U32) (n : Nat) : ∀ call ∈ ksgCalls k nonce n, HashShape c call :=
  List.forall_mem_map.mpr fun _ _ => .inr (.inl ⟨nonce, _, rfl⟩)

theorem hashShape_mac (id : Byte) {msg : Packet} (h : msg.length = 20) :
    ∀ call ∈ [((kdf c id).mac, msg)], HashShape c call :=
  List.forall_mem_singleton.mpr (.inr (.inr ⟨id, rfl, h⟩))

theorem hashShape_encCalls (f : SensorFrame) : ∀ call ∈ hashCalls c (.enc f) m, HashShape c call := by
  by_cases hid : NodeIdValid c f.nodeId
  · rw [hashCalls_enc_valid m hid]
    simp only [List.forall_mem_append]
    exact ⟨hashShape_kdfCalls _, hashShape_ksgCalls _ _ _, hashShape_mac _ (taggedMessage_length _ _ _)⟩
  · rw [hashCalls_enc_invalid m hid]
    nofun

theorem hashShape_decCalls (data : Packet) : ∀ call ∈ hashCalls c (.dec data) m, HashShape c call := by
  match hf : frameOfData data with
  | none =>
    rw [hashCalls_dec_of_no_frame c m hf]
    nofun
  | some f =>
    have hverify : ∀ call ∈ kdfCalls c f.nodeId ++ [((kdf c f.nodeId).mac, data.take 20)], HashShape c call :=
      List.forall_mem_append.mpr ⟨hashShape_kdfCalls _, hashShape_mac _ (length_take_of_frame hf)⟩
    by_cases haccepted : TagPasses c data f ∧ Fresh m f.nodeId f.txSeq
    · obtain ⟨ht, hr⟩ := haccepted
      rw [hashCalls_dec_accepted hf ht hr]
      exact List.forall_mem_append.mpr ⟨hverify, hashShape_ksgCalls _ _ _⟩
    · rw [hashCalls_dec_rejected hf haccepted]
      exact hverify

/-- Every invocation of every command has one of the shapes. -/
theorem hashShape_hashCalls (i : Instr) : ∀ call ∈ hashCalls c i m, HashShape c call := by
  cases i with
  | kdf id => exact hashShape_kdfCalls id
  | ksg key nonce n => exact hashShape_ksgCalls key nonce n.toNat
  | enc f => exact hashShape_encCalls f
  | dec data => exact hashShape_decCalls data
  | reserved p => nofun

theorem ksgCalls_length (k : Key) (nonce : U32) (n : Nat) : (ksgCalls k nonce n).length = blockCount n := by
  rw [ksgCalls, List.length_map, List.length_range]

/-- Settles O52: the shapes are those of the parts each list is made of, and its length is the sum of theirs: 4 for the
subkeys, 1 for the tag, 2 for a 15-byte keystream. -/
theorem hashMessageShapes : Obligations.HashMessageShapes := by
  refine fun c i m => ⟨fun k msg => hashShape_hashCalls i (k, msg), ?_⟩
  cases i with
  | kdf id => rfl
  | ksg key nonce n => exact ⟨ksgCalls_length _ _ _, (ksgCalls_length _ _ _).trans_le (blockCount_le n)⟩
  | enc f =>
    intro hid
    rw [hashCalls_enc_valid m hid]
    rfl
  | dec data =>
    refine fun f hf => ⟨fun ⟨ht, hr⟩ => ?_, fun hrejected => ?_⟩
    · rw [hashCalls_dec_accepted hf ht hr]
      rfl
    · rw [hashCalls_dec_rejected hf hrejected]
      rfl
  | reserved p => rfl

end Shapes

end Sys2Proof.Proofs
end

section
/-!
PROOFS. The assembler (30_encoding.md R63): the commands it makes are well formed, and a number is read exactly or
refused.
-/

namespace Sys2Proof.Proofs

open Machine Laws

section Commands

variable {mnemonic operands line : List Char} {i : Instr}

/-- A command that the assembler reads is one of the four, and a DEC has at most 255 bytes. -/
theorem readCommand_cases (h : readCommand mnemonic operands = some i) :
    (∃ id, i = .kdf id) ∨ (∃ key nonce n, i = .ksg key nonce n) ∨ (∃ f, i = .enc f) ∨
    ∃ data, i = .dec data ∧ data.length ≤ 255 := by
  unfold readCommand at h
  dsimp only at h
  split at h
  case isTrue =>
    split at h
    next =>
      obtain ⟨id, -, rfl⟩ := Option.map_eq_some_iff.mp h
      exact .inl ⟨id, rfl⟩
    next => cases h
  split at h
  case isFalse.isTrue =>
    split at h
    next =>
      split at h
      next => exact .inr (.inl ⟨_, _, _, (Option.some.inj h).symm⟩)
      next => cases h
    next => cases h
  split at h
  case isFalse.isFalse.isTrue =>
    split at h
    next =>
      obtain ⟨f, -, rfl⟩ := Option.map_eq_some_iff.mp h
      exact .inr (.inr (.inl ⟨f, rfl⟩))
    next => cases h
  split at h
  case isFalse.isFalse.isFalse.isTrue =>
    split at h
    next data _ =>
      obtain ⟨hlen, hi⟩ := Option.ite_none_right_eq_some.mp h
      exact .inr (.inr (.inr ⟨data, (Option.some.inj hi).symm, hlen⟩))
    next => cases h
  case isFalse.isFalse.isFalse.isFalse => cases h

theorem wellFormed_of_readCommand (h : readCommand mnemonic operands = some i) :
    i.wellFormed = true ∧ ∀ p, i ≠ .reserved p := by
  obtain ⟨_, rfl⟩ | ⟨_, _, _, rfl⟩ | ⟨_, rfl⟩ | ⟨data, rfl, hlen⟩ := readCommand_cases h
  case inr.inr.inr => exact ⟨decide_eq_true hlen, nofun⟩
  all_goals exact ⟨rfl, nofun⟩

/-- A line holds a command only if its mnemonic and operands are read as one. -/
theorem readCommand_of_readLine (h : readLine line = .command i) :
    ∃ mnemonic operands, readCommand mnemonic operands = some i := by
  unfold readLine at h
  dsimp only at h
  split at h
  · cases h
  · split at h
    next hcommand =>
      cases h
      exact ⟨_, _, hcommand⟩
    next => cases h

/-- Settles O53: the four commands are well formed, and a well-formed command is what its packet decodes to. -/
theorem assemblerMakesCommands : Obligations.AssemblerMakesCommands := by
  intro line i h
  obtain ⟨mnemonic, operands, hcommand⟩ := readCommand_of_readLine h
  obtain ⟨hwf, hnotReserved⟩ := wellFormed_of_readCommand hcommand
  exact ⟨hwf, hnotReserved, encode i, by rw [assembleLine, h], decode_encode hwf⟩

end Commands

section Numbers

variable {bits base n : Nat} {digit : Char → Option Nat} {s digits : List Char} {v : BitVec bits}

/-- A number read digit by digit is below the power of the base that its length allows. -/
theorem readDigits_lt {acc : Nat} (hdigit : ∀ ch d, digit ch = some d → d < base)
    (h : readDigits digit base acc s = some n) : n < (acc + 1) * base ^ s.length := by
  induction s generalizing acc with
  | nil =>
    obtain rfl : acc = n := Option.some.inj h
    simp
  | cons ch rest ih =>
    rw [readDigits] at h
    split at h
    next => cases h
    next d hd =>
      have hacc : base * acc + d + 1 ≤ (acc + 1) * base := by
        have := hdigit ch d hd
        rw [Nat.add_mul, Nat.mul_comm]
        omega
      calc n < (base * acc + d + 1) * base ^ rest.length := ih h
        _ ≤ (acc + 1) * base * base ^ rest.length := Nat.mul_le_mul_right _ hacc
        _ = (acc + 1) * base ^ (ch :: rest).length := by
          rw [List.length_cons, Nat.pow_succ', Nat.mul_assoc]

theorem hexDigit_lt (ch : Char) (d : Nat) (h : hexDigit ch = some d) : d < 16 := by
  unfold hexDigit at h
  split_ifs at h <;> cases h <;> omega

/-- A hexadecimal pattern of at most `bits / 4` digits fits the field (R63). -/
theorem hex_lt (h : readNumber hexDigit 16 digits = some n) (hlen : digits.length ≤ bits / 4) : n < 2 ^ bits := by
  obtain ⟨-, hdigits⟩ := Option.ite_none_left_eq_some.mp h
  calc n < (0 + 1) * 16 ^ digits.length := readDigits_lt hexDigit_lt hdigits
    _ = 2 ^ (4 * digits.length) := by rw [Nat.zero_add, Nat.one_mul, Nat.pow_mul]
    _ ≤ 2 ^ bits := Nat.pow_le_pow_right (by decide) (by omega)

/-- `x` is no decimal digit: a hexadecimal number is none in decimal. -/
theorem decimal_hexPrefix : readNumber decimalDigit 10 ('0' :: 'x' :: digits) = none := rfl

/-- A minus sign is no decimal digit. -/
theorem decimal_minus : readNumber decimalDigit 10 ('-' :: digits) = none := rfl

theorem fitting_eq_some_iff : fitting bits n = some v ↔ v.toNat = n := by
  rw [fitting, Option.ite_none_right_eq_some, Option.some.injEq]
  refine ⟨fun ⟨hlt, hv⟩ => ?_, fun hv => ⟨hv ▸ v.isLt, ?_⟩⟩
  · rw [← hv, BitVec.toNat_ofNat, Nat.mod_eq_of_lt hlt]
  · rw [← hv, BitVec.ofNat_toNat, BitVec.setWidth_eq]

theorem fitting_of_lt (h : n < 2 ^ bits) : ∃ v, fitting bits n = some v ∧ v.toNat = n := by
  have hv : (BitVec.ofNat bits n).toNat = n := (BitVec.toNat_ofNat n bits).trans (Nat.mod_eq_of_lt h)
  exact ⟨_, fitting_eq_some_iff.mpr hv, hv⟩

theorem fitting_of_le (h : 2 ^ bits ≤ n) : fitting bits n = none := if_neg (Nat.not_lt.mpr h)

section Unsigned

/-- A decimal number is taken as it is, if it fits. -/
theorem readUnsigned_of_decimal (h : readNumber decimalDigit 10 s = some n) : readUnsigned bits s = fitting bits n := by
  unfold readUnsigned
  split
  · cases decimal_hexPrefix.symm.trans h
  · rw [h]
    rfl

theorem readUnsigned_hex (h : readNumber hexDigit 16 digits = some n) :
    readUnsigned bits ('0' :: 'x' :: digits) = fitting bits n := by
  rw [readUnsigned, h]
  rfl

/-- Whatever an unsigned field takes is the number written, in decimal or hexadecimal. -/
theorem number_of_readUnsigned (h : readUnsigned bits s = some v) :
    readNumber decimalDigit 10 s = some v.toNat ∨
      ∃ digits, s = '0' :: 'x' :: digits ∧ readNumber hexDigit 16 digits = some v.toNat := by
  unfold readUnsigned at h
  split at h
  next digits =>
    obtain ⟨n, hn, hv⟩ := Option.bind_eq_some_iff.mp h
    exact .inr ⟨digits, rfl, by rw [fitting_eq_some_iff.mp hv, hn]⟩
  next =>
    obtain ⟨n, hn, hv⟩ := Option.bind_eq_some_iff.mp h
    exact .inl (by rw [fitting_eq_some_iff.mp hv, hn])

end Unsigned

section Signed

theorem readSigned_of_decimal (h : readNumber decimalDigit 10 s = some n) :
    readSigned bits s = if n < 2 ^ (bits - 1) then some (BitVec.ofNat bits n) else none := by
  unfold readSigned
  split
  · cases decimal_hexPrefix.symm.trans h
  · cases decimal_minus.symm.trans h
  · rw [h]
    rfl

theorem readSigned_minus (h : readNumber decimalDigit 10 digits = some n) :
    readSigned bits ('-' :: digits) =
      if n ≤ 2 ^ (bits - 1) then some (BitVec.ofInt bits (-(n : Int))) else none := by
  rw [readSigned, h]
  rfl

theorem readSigned_hex (h : readNumber hexDigit 16 digits = some n) :
    readSigned bits ('0' :: 'x' :: digits) = if digits.length ≤ bits / 4 then fitting bits n else none := by
  rw [readSigned, h]
  rfl

theorem toInt_ofNat_of_lt (hbits : 0 < bits) (h : n < 2 ^ (bits - 1)) : (BitVec.ofNat bits n).toInt = n := by
  have hpow : (n : Int) < 2 ^ (bits - 1) := by exact_mod_cast h
  rw [← BitVec.ofInt_natCast]
  exact BitVec.toInt_ofInt_eq_self hbits (by omega) hpow

theorem toInt_ofInt_neg_of_le (hbits : 0 < bits) (h : n ≤ 2 ^ (bits - 1)) :
    (BitVec.ofInt bits (-(n : Int))).toInt = -n := by
  have hpow : (n : Int) ≤ 2 ^ (bits - 1) := by exact_mod_cast h
  have hpos : (0 : Int) < 2 ^ (bits - 1) := by positivity
  exact BitVec.toInt_ofInt_eq_self hbits (by omega) (by omega)

/-- Whatever a signed field takes is the number written, in decimal, with a minus sign or in hexadecimal. -/
theorem number_of_readSigned (hbits : 0 < bits) (h : readSigned bits s = some v) :
    (∃ n : Nat, readNumber decimalDigit 10 s = some n ∧ v.toInt = (n : Int)) ∨
    (∃ (digits : List Char) (n : Nat), s = '-' :: digits ∧ readNumber decimalDigit 10 digits = some n ∧
      v.toInt = -(n : Int)) ∨
    (∃ (digits : List Char) (n : Nat), s = '0' :: 'x' :: digits ∧ readNumber hexDigit 16 digits = some n ∧
      v.toNat = n) := by
  unfold readSigned at h
  split at h
  case h_1 digits =>
    obtain ⟨-, hread⟩ := Option.ite_none_right_eq_some.mp h
    obtain ⟨n, hn, hv⟩ := Option.bind_eq_some_iff.mp hread
    exact .inr (.inr ⟨digits, n, rfl, hn, fitting_eq_some_iff.mp hv⟩)
  case h_2 digits =>
    obtain ⟨n, hn, hv⟩ := Option.bind_eq_some_iff.mp h
    obtain ⟨hle, hv⟩ := Option.ite_none_right_eq_some.mp hv
    exact .inr (.inl ⟨digits, n, rfl, hn, by rw [← Option.some.inj hv, toInt_ofInt_neg_of_le hbits hle]⟩)
  case h_3 =>
    obtain ⟨n, hn, hv⟩ := Option.bind_eq_some_iff.mp h
    obtain ⟨hlt, hv⟩ := Option.ite_none_right_eq_some.mp hv
    exact .inl ⟨n, hn, by rw [← Option.some.inj hv, toInt_ofNat_of_lt hbits hlt]⟩

end Signed

end Numbers

/-- Settles O54: what each field makes of each form of a number, and back from what it takes to that form. -/
theorem assemblerNeverTruncates : Obligations.AssemblerNeverTruncates := by
  refine ⟨fun bits s n h => ?decimal, fun bits digits n h => ?hex, fun bits s v => number_of_readUnsigned,
    fun bits hbits => ?signed⟩
  case decimal =>
    rw [readUnsigned_of_decimal h]
    exact ⟨fitting_of_lt, fitting_of_le⟩
  case hex =>
    rw [readUnsigned_hex h]
    exact ⟨fitting_of_lt, fitting_of_le⟩
  case signed =>
    have hpos : 0 < bits := by omega
    refine ⟨fun s n h => ?_, fun digits n h => ?_, fun digits n h => ?_, fun s v => number_of_readSigned hpos⟩
    · rw [readSigned_of_decimal h]
      exact ⟨fun hlt => ⟨_, if_pos hlt, toInt_ofNat_of_lt hpos hlt⟩, fun hle => if_neg (Nat.not_lt.mpr hle)⟩
    · rw [readSigned_minus h]
      exact ⟨fun hle => ⟨_, if_pos hle, toInt_ofInt_neg_of_le hpos hle⟩, fun hlt => if_neg (Nat.not_le.mpr hlt)⟩
    · rw [readSigned_hex h]
      refine ⟨fun hlen => ?_, fun hlt => if_neg (Nat.not_le.mpr hlt)⟩
      rw [if_pos hlen]
      exact fitting_of_lt (hex_lt h hlen)

end Sys2Proof.Proofs
end
